-- ==== Sys2Proof/Word.lean ====
section
/-! DEFINITION. Sys2Proof/Word.lean: the word types of 00_scope.md R7 and nothing else.
`uN` and `iN` are both N bits; an `iN` is read as a number by `BitVec.toInt` (two's complement, R8), a `uN` by
`BitVec.toNat`. -/

namespace Sys2Proof

/-- A byte: u8 (00_scope.md R6, R7). -/
abbrev Byte := BitVec 8
/-- An unsigned 16-bit value (R7). -/
abbrev U16 := BitVec 16
/-- An unsigned 32-bit value (R7). -/
abbrev U32 := BitVec 32
/-- A two's-complement 32-bit value (R7); its number is `BitVec.toInt` of it. -/
abbrev I32 := BitVec 32

end Sys2Proof
end

