-- ==== Sys2Proof/Config.lean ====
section
/-! DEFINITION. Sys2Proof/Config.lean: the implementation parameters of 00_scope.md R5.
"A parameter is fixed for the lifetime of a model instance and is not state." The interface of a step has no second
argument, so an instance's parameters stand in `State.cfg`, which no step writes (assumption log 2). -/

namespace Sys2Proof

/-- The parameters of R5. The values after `:=` are R5's "value in this spec"; BUF_CAP is OPEN there, and 128 is the
value of every vector of 95_test_vectors.md (DESIGN CHOICE, log 3; the others log 4). -/
structure Config where
  /-- BUF_CAP: "capacity of the decode buffer in bytes". -/
  bufCap : Nat := 128
  /-- SYNC1: the start-marker byte at frame offset 0. -/
  sync1 : Byte := 0xB5
  /-- SYNC2: the start-marker byte at frame offset 1. -/
  sync2 : Byte := 0x62
  /-- PVT_CLASS: the recognized class byte. -/
  pvtClass : Byte := 0x01
  /-- PVT_ID: the recognized id byte. -/
  pvtId : Byte := 0x07
  /-- PDOP_OFFSET: payload offset of the position-DOP field, 72 as observed. -/
  pdopOffset : Nat := 72
  deriving DecidableEq, Repr

namespace Config

/-- The instance of R5 with its default values, and of the test vectors. -/
def default : Config := {}

/-- PVT_MIN_LEN, "the smallest payload length the decoder accepts for the recognized message" (R5, R73). -/
def pvtMinLen (c : Config) : Nat := max 76 (c.pdopOffset + 2)

/-- The width ceil(log2(BUF_CAP + 1)) of `fill` (10_state.md R22) and of `chunk_len` (30_encoding.md R60). -/
def lenBits (c : Config) : Nat := if c.bufCap = 0 then 0 else Nat.log2 c.bufCap + 1

/-- R5's constraint `BUF_CAP >= 8`. -/
def capacityHoldsSmallestFrame (c : Config) : Bool := decide (8 ≤ c.bufCap)

/-- The two values R5 gives PDOP_OFFSET: 72, or 76 as "the alternative a model may select" (log 13). -/
def pdopOffsetAllowed (c : Config) : Bool := c.pdopOffset == 72 || c.pdopOffset == 76

/-- A parameter choice R5 allows. -/
def wf (c : Config) : Bool := c.capacityHoldsSmallestFrame && c.pdopOffsetAllowed

end Config

end Sys2Proof
end

