-- ==== Sys2Proof/Syntax.lean ====
section
/-! DEFINITION. Sys2Proof/Syntax.lean: the instructions, one constructor per row of spec/opcode_table.json.
The table has two formats (30_encoding.md R61, R74). A `command` row is selected by the 3-bit port `cmd`; the host issues
it. A `frame_header` row is selected by the header word of a complete frame in the buffer; INGEST hands such a frame to
DECODE (40_assembler.md R108), and the row is what DECODE does with it (41_extractor.md R130). -/

namespace Sys2Proof

/-- One instruction. A frame's operands are what its row does not fix: the class and id bytes, the payload P and the two
trailer bytes c0 c1 (R65, R79). -/
inductive Instr
  /-- INGEST, cmd 001: deliver one chunk (40_assembler.md R100). -/
  | ingest (chunk : List Byte)
  /-- XFAIL, cmd 010: the transport read failed (R111). -/
  | xfail
  /-- PEEK_ALWAYS, cmd 011: read the record unconditionally (42_accessors.md R170). -/
  | peekAlways
  /-- PEEK_IF_NEW, cmd 100: read the record only if it is new (R171). -/
  | peekIfNew
  /-- RESET, cmd 101: return the block to its initial state (70_reset_and_hazards.md R200). -/
  | reset
  /-- NAV_PVT: a frame of the recognized (class, id) pair (41_extractor.md R130). -/
  | navPvt (payload : List Byte) (c0 c1 : Byte)
  /-- UNRECOGNIZED_MESSAGE: a frame of class PVT_CLASS with another id (R131). -/
  | unrecognizedMessage (id : Byte) (payload : List Byte) (c0 c1 : Byte)
  /-- UNRECOGNIZED_CLASS: a frame of any other class (R131). -/
  | unrecognizedClass (cls id : Byte) (payload : List Byte) (c0 c1 : Byte)
  deriving DecidableEq, Repr

/-- An instruction as the block receives it: a request on the command port (R60), or the bytes of a frame (R65). -/
inductive Encoded
  /-- `cmd : u3` with the chunk presented beside it. -/
  | request (cmd : BitVec 3) (chunk : List Byte)
  /-- Frame bytes, frame offset 0 first. -/
  | frame (bytes : List Byte)
  deriving DecidableEq, Repr

end Sys2Proof
end

