-- ==== Sys2Proof/Machine/State.lean ====
section
/-! DEFINITION. Sys2Proof/Machine/State.lean: the state as plain data, the statuses and responses, and reset.
The spec's state is the tuple (buf, fill, rec, fresh) of 10_state.md R20; beside it stand the ports of 30_encoding.md R60
(log 1, log 7) and the instance's parameters (log 2). -/

namespace Sys2Proof.Machine

/-- `FixType` (10_state.md R25): six values, so codes 6 and 7 cannot occur in `rec.fix_type` (R30 I3). -/
inductive FixType
  /-- 0 NO_FIX, "no-fix". -/
  | noFix
  /-- 1 DEAD_RECKONING_ONLY, "dead-reckoning-only". -/
  | deadReckoningOnly
  /-- 2 FIX_2D, "2D". -/
  | fix2D
  /-- 3 FIX_3D, "3D". -/
  | fix3D
  /-- 4 GNSS_DEAD_RECKONING, "dead-reckoning+GNSS". -/
  | gnssDeadReckoning
  /-- 5 TIME_ONLY, "time-only". -/
  | timeOnly
  deriving DecidableEq, Repr

/-- The Positioning Record (10_state.md R24): raw integers as transmitted, in the order of R24's table. -/
structure Record where
  itow : U32
  year : U16
  month : Byte
  day : Byte
  hour : Byte
  min : Byte
  sec : Byte
  validRaw : Byte
  tacc : U32
  nano : I32
  fixType : FixType
  flagsRaw : Byte
  flags2Raw : Byte
  fixValid : Bool
  dateValid : Bool
  timeValid : Bool
  numSv : Byte
  lon : I32
  lat : I32
  height : I32
  hmsl : I32
  hacc : U32
  vacc : U32
  velN : I32
  velE : I32
  velD : I32
  gspeed : I32
  headMot : I32
  sacc : U32
  headAcc : U32
  pdop : U16
  deriving DecidableEq, Repr

/-- `ZERO_RECORD` (10_state.md R29): every integer field 0, every bool 0, `fix_type` NO_FIX. -/
def Record.zero : Record where
  itow := 0
  year := 0
  month := 0
  day := 0
  hour := 0
  min := 0
  sec := 0
  validRaw := 0
  tacc := 0
  nano := 0
  fixType := .noFix
  flagsRaw := 0
  flags2Raw := 0
  fixValid := false
  dateValid := false
  timeValid := false
  numSv := 0
  lon := 0
  lat := 0
  height := 0
  hmsl := 0
  hacc := 0
  vacc := 0
  velN := 0
  velE := 0
  velD := 0
  gspeed := 0
  headMot := 0
  sacc := 0
  headAcc := 0
  pdop := 0

/-- The statuses of INGEST and XFAIL (30_encoding.md R64); codes 6 and 7 are never returned and have no name. -/
inductive Status
  | ok
  | bufOverflow
  | unrecognizedClass
  | unrecognizedMessage
  | transportFailure
  | shortPayload
  deriving DecidableEq, Repr

/-- The response port (30_encoding.md R60). "A response field that a command does not define is absent": `none`. -/
structure Response where
  /-- `status : u3`, for INGEST and XFAIL. -/
  status : Option Status
  /-- `has_new : bool`, for PEEK_IF_NEW. -/
  hasNew : Option Bool
  /-- `rec_out : Record`, for PEEK_ALWAYS, and for PEEK_IF_NEW when `has_new = 1`. -/
  recOut : Option Record
  deriving DecidableEq, Repr

/-- No field present: the response of RESET (R200), and the port before the first command (log 7). -/
def Response.absent : Response := ⟨none, none, none⟩

/-- A response that carries a status alone: INGEST and XFAIL (R60). -/
def Response.ofStatus (st : Status) : Response := ⟨some st, none, none⟩

/-- A response that carries a record alone: PEEK_ALWAYS (R60). -/
def Response.ofRecord (r : Record) : Response := ⟨none, none, some r⟩

/-- `has_new = 1` with a record: PEEK_IF_NEW when there is one (R171). -/
def Response.ofNew (r : Record) : Response := ⟨none, some true, some r⟩

/-- `has_new = 0`, `rec_out` absent: PEEK_IF_NEW when there is none (R171). -/
def Response.ofNothingNew : Response := ⟨none, some false, none⟩

/-- One transaction's request side (30_encoding.md R60). Only INGEST reads `chunk`. -/
structure Request where
  cmd : BitVec 3
  chunk : List Byte
  deriving DecidableEq, Repr

/-- What the host presents. `overlap` is the host breaking 70_reset_and_hazards.md R204: the second transaction is
issued while the first is in progress (log 1). -/
inductive HostEvent
  | command (r : Request)
  | overlap (r r' : Request)
  deriving DecidableEq, Repr

/-- The outcome of the transport's read, which is outside the block (40_assembler.md R111, 60_exceptions.md R189). -/
inductive TransportRead
  /-- "the count of bytes written (0 meaning no data currently available)": the bytes read. -/
  | delivered (bytes : List Byte)
  /-- "a transport-level failure". -/
  | failed
  deriving DecidableEq, Repr

/-- Why the machine stops with a fault: NOTHING. The block has no trap mechanism, an error is a status on the response
(60_exceptions.md R180, R185), no error is fatal (R181), and no access outside the buffer can occur (20_memory.md R45,
40_assembler.md R112). A closed type with no constructor (log 12). -/
inductive Fault : Type
  deriving DecidableEq, Repr

/-- Why a step gives a run no meaning. -/
inductive Refusal
  /-- An arm of exec without a meaning yet; no arm raises it. Safe. -/
  | notModelled (mnemonic : String)
  /-- The codes 000, 110 and 111 "spell no command. A model refuses a transaction that carries one" (30_encoding.md R62).
  Raised by the fetch of a command. Safe: no claim covers a host that sends one. -/
  | reservedCommand (cmd : BitVec 3)
  /-- "A model gives overlapping commands no meaning: it refuses the run" (70_reset_and_hazards.md R204). Raised by the
  fetch of a command. Safe: no claim covers such a host. -/
  | overlappingCommands
  deriving DecidableEq, Repr

/-- The decode buffer `buf` as (index, byte) pairs: indices strictly rising, no entry equal to what an unlisted index
reads as (`unlistedByte`). The operations are in Ops.lean. -/
abbrev Memory := List Host.Cell

/-- What an unlisted buffer index reads as. The spec leaves the bytes at reset unspecified and no rule reads a byte that
was not written (10_state.md R23, R29): "A model may therefore hold any value there" (DESIGN CHOICE, log 5). -/
def unlistedByte : Byte := 0

/-- The machine's state. -/
structure State where
  /-- The parameters of the instance (00_scope.md R5); no step writes them (log 2). -/
  cfg : Config
  /-- `buf` (10_state.md R21). -/
  buf : Memory
  /-- `fill` (R22). -/
  fill : Nat
  /-- `rec`, the latest-value record (R24). -/
  record : Record
  /-- `fresh`, the freshness flag (R26). -/
  fresh : Bool
  /-- The request port: what the host still presents, next transaction first (30_encoding.md R60; log 1). -/
  host : List HostEvent
  /-- The response port: the last command's response (R60; log 7). No command reads it. -/
  response : Response
  deriving DecidableEq, Repr

/-- What the next step runs. -/
inductive Fetched
  /-- The host presents nothing: the block waits (70_reset_and_hazards.md R201; log 1). -/
  | idle
  /-- The host broke its contract. -/
  | stop (r : Refusal)
  /-- The instruction, and the state with its transaction taken. -/
  | run (i : Instr) (s : State)
  deriving DecidableEq, Repr

/-- The state after power-on of an instance with parameters `cfg` (10_state.md R29, 70_reset_and_hazards.md R200). -/
def State.resetWith (cfg : Config) : State where
  cfg := cfg
  buf := []
  fill := 0
  record := Record.zero
  fresh := false
  host := []
  response := Response.absent

/-- The state after reset of the instance with R5's values (log 3). -/
def State.reset : State := State.resetWith Config.default

end Sys2Proof.Machine
end

