-- ==== Sys2Proof/Machine/Flags.lean ====
section
/-! DEFINITION. Sys2Proof/Machine/Flags.lean: the flag bits of a payload (30_encoding.md R71), the fix-type mapping
(R72), the numeric codes of FixType and Status, and the freshness flag (10_state.md R26). -/

namespace Sys2Proof.Machine

/-- `fix_valid`: "bit 0 of the fix-flags byte" (R71, 41_extractor.md R147). -/
def fixValidBit (flags : Byte) : Bool := flags.getLsbD 0

/-- `date_valid = (flags2 & 0b1000000) != 0` (R71, R149). -/
def dateValidBit (flags2 : Byte) : Bool := (flags2 &&& 0b1000000) != 0

/-- `time_valid = (flags2 & 0b10000000) != 0` (R71, R150). -/
def timeValidBit (flags2 : Byte) : Bool := (flags2 &&& 0b10000000) != 0

/-- The fix-type byte `v` is code `v` when `v <= 5` and NO_FIX when `v >= 6` (R72, R145). -/
def fixTypeOfByte (v : Byte) : FixType :=
  if v = 1 then .deadReckoningOnly
  else if v = 2 then .fix2D
  else if v = 3 then .fix3D
  else if v = 4 then .gnssDeadReckoning
  else if v = 5 then .timeOnly
  else .noFix

/-- The codes of 10_state.md R25. -/
def FixType.code : FixType → Nat
  | .noFix => 0
  | .deadReckoningOnly => 1
  | .fix2D => 2
  | .fix3D => 3
  | .gnssDeadReckoning => 4
  | .timeOnly => 5

/-- `status : u3` (30_encoding.md R64). -/
def Status.code : Status → BitVec 3
  | .ok => 0
  | .bufOverflow => 1
  | .unrecognizedClass => 2
  | .unrecognizedMessage => 3
  | .transportFailure => 4
  | .shortPayload => 5

/-- The names of R64, for the responses of R78. -/
def Status.name : Status → String
  | .ok => "OK"
  | .bufOverflow => "BUF_OVERFLOW"
  | .unrecognizedClass => "UNRECOGNIZED_CLASS"
  | .unrecognizedMessage => "UNRECOGNIZED_MESSAGE"
  | .transportFailure => "TRANSPORT_FAILURE"
  | .shortPayload => "SHORT_PAYLOAD"

/-- `fresh <- 1`, "not-yet-consumed" (10_state.md R26). -/
def State.markFresh (s : State) : State := { s with fresh := true }

/-- `fresh <- 0`, "consumed" (R26). -/
def State.markConsumed (s : State) : State := { s with fresh := false }

end Sys2Proof.Machine
end

