-- ==== Sys2Proof/Machine/Operands.lean ====
section
/-! DEFINITION. Sys2Proof/Machine/Operands.lean: operand assembly (30_encoding.md R76).
The little-endian readers of 00_scope.md R8, over a byte sequence. -/

namespace Sys2Proof.Machine

/-- `B[o]`. Every read of the rules has `o < |B|` (41_extractor.md R132); outside it the value is 0, which no rule
asks for (assumption log 10). -/
def byteAt (B : List Byte) (o : Nat) : Byte := B.getD o 0

/-- `le_u8(B, o)` (R8). -/
def leU8 (B : List Byte) (o : Nat) : Byte := byteAt B o

/-- `le_u16(B, o)` (R8). -/
def leU16 (B : List Byte) (o : Nat) : U16 :=
  BitVec.ofNat 16 ((byteAt B o).toNat + 256 * (byteAt B (o + 1)).toNat)

/-- `le_u32(B, o)` (R8). -/
def leU32 (B : List Byte) (o : Nat) : U32 :=
  BitVec.ofNat 32 ((byteAt B o).toNat + 2 ^ 8 * (byteAt B (o + 1)).toNat + 2 ^ 16 * (byteAt B (o + 2)).toNat
    + 2 ^ 24 * (byteAt B (o + 3)).toNat)

/-- `le_i32(B, o)` (R8): the 32 bits of `le_u32`, whose number is their two's-complement value `BitVec.toInt`
(assumption log 9). -/
def leI32 (B : List Byte) (o : Nat) : I32 := leU32 B o

/-- The two bytes `[L mod 256, L div 256]` of a length field (R65, R79). -/
def lengthBytes (L : Nat) : List Byte := [BitVec.ofNat 8 (L % 256), BitVec.ofNat 8 (L / 256)]

/-- `n` bytes of the number `w`, least significant first. -/
def bytesOfNat : Nat → Nat → List Byte
  | 0, _ => []
  | n + 1, w => BitVec.ofNat 8 (w % 256) :: bytesOfNat n (w / 256)

end Sys2Proof.Machine
end

