-- ==== Sys2Proof/Machine/Ops.lean ====
section
/-! DEFINITION. Sys2Proof/Machine/Ops.lean: the named operations over the buffer, the record and the response: the
primitives of 20_memory.md R46, `MemRead`, the frame view, resync, and ending a command (`return S`, `raise S`). -/

namespace Sys2Proof.Machine

/-! ### The buffer as memory -/

/-- `buf[i]` (00_scope.md R7). -/
def Memory.read : Memory → Nat → Byte
  | [], _ => unlistedByte
  | (k, v) :: m, i => if i = k then v else Memory.read m i

/-- `buf[i] <- b`, keeping the canonical form. -/
def Memory.write : Memory → Nat → Byte → Memory
  | [], i, b => if b = unlistedByte then [] else [(i, b)]
  | (k, v) :: m, i, b =>
    if i < k then (if b = unlistedByte then (k, v) :: m else (i, b) :: (k, v) :: m)
    else if i = k then (if b = unlistedByte then m else (i, b) :: m)
    else (k, v) :: Memory.write m i b

/-- Every listed index is at least `lo`, indices rise strictly, and no entry is what an unlisted index reads as. -/
def Memory.wfFrom : Nat → Memory → Bool
  | _, [] => true
  | lo, (k, v) :: m => decide (lo ≤ k) && (v != unlistedByte) && Memory.wfFrom (k + 1) m

/-- The canonical form. -/
def Memory.wf (m : Memory) : Bool := Memory.wfFrom 0 m

/-- No listed index reaches `n`: the buffer has the indices `0 .. n-1` (20_memory.md R40). -/
def Memory.below (n : Nat) (m : Memory) : Bool := m.all (fun c => decide (c.1 < n))

/-- `MemWrite(i, |bs|, bs)` (00_scope.md R9): byte `j` of `bs` goes to index `i + j`. -/
def Memory.writeBytes : Memory → Nat → List Byte → Memory
  | m, _, [] => m
  | m, i, b :: bs => Memory.writeBytes (Memory.write m i b) (i + 1) bs

/-- The byte sequence of `n` bytes from index `a`: `buf[a..a+n)` (00_scope.md R7). -/
def Memory.slice (m : Memory) : Nat → Nat → List Byte
  | _, 0 => []
  | a, n + 1 => Memory.read m a :: Memory.slice m (a + 1) n

/-- `for j in 0 .. n-1: buf[i + j] <- buf[i + k + j]`, in ascending order (20_memory.md R46). The copy runs in place;
since the source index is never below the destination, each read sees the old byte. -/
def Memory.moveDown (m : Memory) (k : Nat) : Nat → Nat → Memory
  | _, 0 => m
  | i, n + 1 => Memory.moveDown (Memory.write m i (Memory.read m (k + i))) k (i + 1) n

/-- The first index `p` with `p0 <= p < p0 + n` and `buf[p] = b` (20_memory.md R46). -/
def Memory.find (m : Memory) (b : Byte) : Nat → Nat → Option Nat
  | _, 0 => none
  | p, n + 1 => if Memory.read m p = b then some p else Memory.find m b (p + 1) n

/-! ### The buffer primitives of 20_memory.md R46 -/

/-- `Append(c)`. -/
def State.append (s : State) (c : List Byte) : State :=
  { s with buf := Memory.writeBytes s.buf s.fill c, fill := s.fill + c.length }

/-- `RemoveFront(k)`. -/
def State.removeFront (s : State) (k : Nat) : State :=
  { s with buf := Memory.moveDown s.buf k 0 (s.fill - k), fill := s.fill - k }

/-- `FindFrom(start, b)`. -/
def State.findFrom (s : State) (start : Nat) (b : Byte) : Option Nat :=
  Memory.find s.buf b start (s.fill - start)

/-- The overflow reset `fill <- 0` (40_assembler.md R102). -/
def State.discardAll (s : State) : State := { s with fill := 0 }

/-- `buf[a..b)` (00_scope.md R7). -/
def State.bytes (s : State) (a b : Nat) : List Byte := Memory.slice s.buf a (b - a)

/-- The valid bytes `buf[0..fill)` (10_state.md R22). -/
def State.contents (s : State) : List Byte := s.bytes 0 s.fill

/-- `MemRead(i, 2)` (00_scope.md R9). -/
def State.memRead16 (s : State) (i : Nat) : U16 := leU16 (s.bytes i (i + 2)) 0

/-! ### The frame view (20_memory.md R41) -/

/-- `buf[0] = SYNC1 and buf[1] = SYNC2`. -/
def State.headIsMarker (s : State) : Bool :=
  Memory.read s.buf 0 == s.cfg.sync1 && Memory.read s.buf 1 == s.cfg.sync2

/-- "Framed correctly" (00_scope.md R11). -/
def State.framed (s : State) : Bool := decide (2 ≤ s.fill) && s.headIsMarker

/-- The payload length `L = le_u16(buf, 4)` (30_encoding.md R67). -/
def State.payloadLength (s : State) : Nat := (s.memRead16 4).toNat

/-- The total frame length `T = L + 8`, exact (R67). -/
def State.frameLength (s : State) : Nat := s.payloadLength + 8

/-- The payload `P = buf[6..6+L)` (R41). -/
def State.payload (s : State) : List Byte := s.bytes 6 (6 + s.payloadLength)

/-- "Complete frame" (00_scope.md R11). -/
def State.frameComplete (s : State) : Bool :=
  s.framed && decide (6 ≤ s.fill) && decide (s.frameLength ≤ s.fill)

/-- The regions of the buffer while a frame is at its front (20_memory.md R42). -/
inductive Region
  | marker | cls | id | length | payload | trailer | afterFrame
  deriving DecidableEq, Repr

/-- R42's map: the region of index `i` when the frame at the front has payload length `L`. R42's last row ends at `fill-1`,
and it gives an index at or above `fill` no region (10_state.md R23: stale). The map has no `fill`: that `afterFrame` is its
answer for every index from `8+L` on, the stale ones among them, is a DESIGN CHOICE (assumption log 18). No step reads it. -/
def regionOf (L i : Nat) : Region :=
  if i < 2 then .marker
  else if i = 2 then .cls
  else if i = 3 then .id
  else if i < 6 then .length
  else if i < 6 + L then .payload
  else if i < 8 + L then .trailer
  else .afterFrame

/-! ### Resync (40_assembler.md R104) -/

/-- Step 4 of INGEST, at most `n` passes. A pass removes at least one byte (R105), so `fill` passes are enough
(assumption log 10). -/
def State.resyncPasses : Nat → State → State
  | 0, s => s
  | n + 1, s =>
    if 2 ≤ s.fill ∧ s.headIsMarker = false then
      match s.findFrom 1 s.cfg.sync1 with
      | none => s
      | some p => State.resyncPasses n (s.removeFront p)
    else s

/-- Step 4 of INGEST. -/
def State.resync (s : State) : State := s.resyncPasses s.fill

/-! ### Ending a command -/

/-- The command ends with this response. -/
def State.respond (s : State) (r : Response) : State := { s with response := r }

/-- `return S` (00_scope.md R9). -/
def State.returnStatus (s : State) (st : Status) : State := s.respond (Response.ofStatus st)

/-- `raise S`: the error entry. It ends the command with status `S`; "State updates written before `raise` in the same
pseudocode are kept. No state is saved or rolled back" (00_scope.md R9, 60_exceptions.md R184, R185). There is no return
from an error (R186). -/
def State.raise (s : State) (st : Status) : State := s.respond (Response.ofStatus st)

/-- The commit of a decode, `rec <- r; fresh <- 1` (41_extractor.md R166). -/
def State.commit (s : State) (r : Record) : State := State.markFresh { s with record := r }

/-- The outcome with its next state changed by `f`. -/
def mapNext (f : State → State) (o : Host.Outcome State Fault Refusal) : Host.Outcome State Fault Refusal :=
  match o with
  | .next s => .next (f s)
  | .fault r => .fault r
  | .refused r => .refused r

end Sys2Proof.Machine
end

