-- ==== Sys2Proof/Machine/Accessors.lean ====
section
/-! DEFINITION. Sys2Proof/Machine/Accessors.lean: PEEK_ALWAYS and PEEK_IF_NEW (42_accessors.md). -/

namespace Sys2Proof.Machine

/-- PEEK_ALWAYS (R170): `rec_out <- rec; fresh <- 0`. -/
def execPeekAlways (s : State) : Host.Outcome State Fault Refusal :=
  .next (s.markConsumed.respond (Response.ofRecord s.record))

/-- PEEK_IF_NEW (R171): the record and `fresh <- 0` when `fresh = 1`; else `has_new = 0` and no record. -/
def execPeekIfNew (s : State) : Host.Outcome State Fault Refusal :=
  if s.fresh then .next (s.markConsumed.respond (Response.ofNew s.record))
  else .next (s.respond Response.ofNothingNew)

end Sys2Proof.Machine
end

