-- ==== Sys2Proof/Machine/Extractor.lean ====
section
/-! DEFINITION. Sys2Proof/Machine/Extractor.lean: DECODE (41_extractor.md), one meaning per frame row.
DECODE never writes `buf` or `fill`; "The caller removes the frame" (R130). -/

namespace Sys2Proof.Machine

/-- The record of a payload `P`: one field rule each, R135 to R165. -/
def extractRecord (cfg : Config) (P : List Byte) : Record where
  itow := leU32 P 0
  year := leU16 P 4
  month := leU8 P 6
  day := leU8 P 7
  hour := leU8 P 8
  min := leU8 P 9
  sec := leU8 P 10
  validRaw := leU8 P 11
  tacc := leU32 P 12
  nano := leI32 P 16
  fixType := fixTypeOfByte (leU8 P 20)
  flagsRaw := leU8 P 21
  fixValid := fixValidBit (leU8 P 21)
  flags2Raw := leU8 P 22
  dateValid := dateValidBit (leU8 P 22)
  timeValid := timeValidBit (leU8 P 22)
  numSv := leU8 P 23
  lon := leI32 P 24
  lat := leI32 P 28
  height := leI32 P 32
  hmsl := leI32 P 36
  hacc := leU32 P 40
  vacc := leU32 P 44
  velN := leI32 P 48
  velE := leI32 P 52
  velD := leI32 P 56
  gspeed := leI32 P 60
  headMot := leI32 P 64
  sacc := leU32 P 68
  headAcc := leU32 P 72
  pdop := leU16 P cfg.pdopOffset

/-- NAV_PVT (R130, R132, R166): the recognized pair. A payload below PVT_MIN_LEN raises SHORT_PAYLOAD and leaves the
cell; otherwise the whole record is written and `fresh` is set. -/
def execNavPvt (payload : List Byte) (s : State) : Host.Outcome State Fault Refusal :=
  if payload.length < s.cfg.pvtMinLen then .next (s.raise .shortPayload)
  else .next ((s.commit (extractRecord s.cfg payload)).returnStatus .ok)

/-- UNRECOGNIZED_MESSAGE (R131): reported, the cell unchanged. -/
def execUnrecognizedMessage (s : State) : Host.Outcome State Fault Refusal :=
  .next (s.raise .unrecognizedMessage)

/-- UNRECOGNIZED_CLASS (R131): reported, the cell unchanged; the id is not looked at. -/
def execUnrecognizedClass (s : State) : Host.Outcome State Fault Refusal :=
  .next (s.raise .unrecognizedClass)

/-- `DECODE(cls, id, P)` (R130): class, then id, then the recognized pair's meaning. -/
def execDecode (cls id : Byte) (payload : List Byte) (s : State) : Host.Outcome State Fault Refusal :=
  if cls ≠ s.cfg.pvtClass then execUnrecognizedClass s
  else if id ≠ s.cfg.pvtId then execUnrecognizedMessage s
  else execNavPvt payload s

end Sys2Proof.Machine
end

