-- ==== Sys2Proof/Machine/Assembler.lean ====
section
/-! DEFINITION. Sys2Proof/Machine/Assembler.lean: INGEST and XFAIL (40_assembler.md). -/

namespace Sys2Proof.Machine

/-- Step 7 (R108): DECODE the frame at the front, then `RemoveFront(T)` whatever the status. -/
def State.handOff (s : State) : Host.Outcome State Fault Refusal :=
  mapNext (fun t => t.removeFront s.frameLength)
    (execDecode (Memory.read s.buf 2) (Memory.read s.buf 3) s.payload s)

/-- Steps 5 to 7 (R106, R107, R108), on the buffer as step 4 left it: at most one frame (R109). -/
def State.processFrame (s : State) : Host.Outcome State Fault Refusal :=
  if s.fill < 6 ∨ s.headIsMarker = false then .next (s.returnStatus .ok)
  else if s.fill < s.frameLength then .next (s.returnStatus .ok)
  else s.handOff

/-- INGEST (R100): the empty chunk (R101), overflow (R102), append (R103), resync (R104), then steps 5 to 7. -/
def execIngest (chunk : List Byte) (s : State) : Host.Outcome State Fault Refusal :=
  if chunk.length = 0 then .next (s.returnStatus .ok)
  else if s.cfg.bufCap < s.fill + chunk.length then .next (s.discardAll.raise .bufOverflow)
  else (s.append chunk).resync.processFrame

/-- XFAIL (R111): "no state is read or written". -/
def execXfail (s : State) : Host.Outcome State Fault Refusal :=
  .next (s.raise .transportFailure)

/-- How a transport read reaches the block (R111): "a successful read becomes INGEST with the bytes read (a count of 0
becomes `INGEST []`), and a failed read becomes XFAIL". -/
def TransportRead.command : TransportRead → Instr
  | .delivered bytes => .ingest bytes
  | .failed => .xfail

end Sys2Proof.Machine
end

