-- ==== Sys2Proof/Machine/Reset.lean ====
section
/-! DEFINITION. Sys2Proof/Machine/Reset.lean: RESET (70_reset_and_hazards.md R200). -/

namespace Sys2Proof.Machine

/-- RESET (R200): `fill <- 0; rec <- ZERO_RECORD; fresh <- 0`. The buffer bytes are unspecified, "a model may leave any
bytes there": this one leaves the bytes that were there (DESIGN CHOICE, log 6). The response carries nothing. -/
def execReset (s : State) : Host.Outcome State Fault Refusal :=
  .next (({ s.discardAll with record := Record.zero } : State).markConsumed.respond Response.absent)

end Sys2Proof.Machine
end

