-- ==== Sys2Proof/Machine/Dispatch.lean ====
section
/-! DEFINITION. Sys2Proof/Machine/Dispatch.lean: one arm per constructor of Instr. -/

namespace Sys2Proof.Machine

-- The five command rows (30_encoding.md R61), then the three frame rows (R74); a frame row's class, id and trailer
-- bytes have chosen the row and are read no further (41_extractor.md R131, 30_encoding.md R68).
def exec (i : Instr) (s : State) : Host.Outcome State Fault Refusal :=
  match i with
  | .ingest chunk => Sys2Proof.Machine.execIngest chunk s
  | .xfail => Sys2Proof.Machine.execXfail s
  | .peekAlways => Sys2Proof.Machine.execPeekAlways s
  | .peekIfNew => Sys2Proof.Machine.execPeekIfNew s
  | .reset => Sys2Proof.Machine.execReset s
  | .navPvt payload _ _ => Sys2Proof.Machine.execNavPvt payload s
  | .unrecognizedMessage _ _ _ _ => Sys2Proof.Machine.execUnrecognizedMessage s
  | .unrecognizedClass _ _ _ _ _ => Sys2Proof.Machine.execUnrecognizedClass s

end Sys2Proof.Machine
end

