-- ==== Sys2Proof/WellFormed.lean ====
section
/-! DEFINITION. Sys2Proof/WellFormed.lean: the checks an instruction term meets when the spec's encoding can spell it.
Executing does not ask for them: INGEST of a chunk outside the contract has its meaning too (30_encoding.md R63). -/

namespace Sys2Proof

/-- R60: "The contract range is `0 <= chunk_len <= BUF_CAP`" (assumption log 11). -/
def chunkInContract (cfg : Config) (chunk : List Byte) : Bool := decide (chunk.length ≤ cfg.bufCap)

/-- R67: the payload length is an unsigned 16-bit value. -/
def payloadFitsLength (payload : List Byte) : Bool := decide (payload.length < 65536)

/-- R69, R74: the id of UNRECOGNIZED_MESSAGE is any id other than PVT_ID. -/
def idIsUnrecognized (cfg : Config) (id : Byte) : Bool := id != cfg.pvtId

/-- R69, R74: the class of UNRECOGNIZED_CLASS is any class other than PVT_CLASS. -/
def classIsUnrecognized (cfg : Config) (cls : Byte) : Bool := cls != cfg.pvtClass

/-- The instruction is one the encodings of 30_encoding.md spell. -/
def Instr.wf (cfg : Config) : Instr → Bool
  | .ingest chunk => chunkInContract cfg chunk
  | .xfail => true
  | .peekAlways => true
  | .peekIfNew => true
  | .reset => true
  | .navPvt payload _ _ => payloadFitsLength payload
  | .unrecognizedMessage id payload _ _ => idIsUnrecognized cfg id && payloadFitsLength payload
  | .unrecognizedClass cls _ payload _ _ => classIsUnrecognized cfg cls && payloadFitsLength payload

/-- The instruction is a row of the table's `command` format. -/
def Instr.isCommand : Instr → Bool
  | .ingest _ | .xfail | .peekAlways | .peekIfNew | .reset => true
  | .navPvt _ _ _ | .unrecognizedMessage _ _ _ _ | .unrecognizedClass _ _ _ _ _ => false

end Sys2Proof
end

