-- ==== Sys2Proof/Decode.lean ====
section
/-! DEFINITION. Sys2Proof/Decode.lean: decoding, total on any request and any bytes, rejecting by name; then the
encoder; then the textual forms of 30_encoding.md R78 and R79. -/

namespace Sys2Proof

open Sys2Proof.Machine

/-- Why a request or a byte sequence spells no instruction. -/
inductive Reject
  /-- `cmd` is 000, 110 or 111 (R62). -/
  | reservedCommand (cmd : BitVec 3)
  /-- The first two bytes are not the start marker (R65, R106). -/
  | notFramed
  /-- Fewer than 6 bytes: marker, class, id and length are not all there (R107). -/
  | shortHeader
  /-- Fewer than T = L + 8 bytes (R107). -/
  | incompleteFrame
  deriving DecidableEq, Repr

/-- The command codes of R61; R62 for the rest. -/
def decodeCommand (cmd : BitVec 3) (chunk : List Byte) : Except Reject Instr :=
  if cmd = 0b001 then .ok (.ingest chunk)
  else if cmd = 0b010 then .ok .xfail
  else if cmd = 0b011 then .ok .peekAlways
  else if cmd = 0b100 then .ok .peekIfNew
  else if cmd = 0b101 then .ok .reset
  else .error (.reservedCommand cmd)

/-- A row of the `frame_header` format: the frame is its when `(H & mask) = match` (R74). -/
structure FrameRow where
  mnemonic : String
  matchBits : BitVec 32
  mask : BitVec 32
  deriving DecidableEq, Repr

/-- The header word from its four bytes: marker in bits 15:0, class in 23:16, id in 31:24 (R74). -/
def headerWord (b0 b1 b2 b3 : Byte) : BitVec 32 := b3 ++ b2 ++ b1 ++ b0

/-- The frame rows of the table in their order (R74); at the default parameters their words are the table's. -/
def frameRows (cfg : Config) : List FrameRow :=
  [ ⟨"NAV_PVT", headerWord cfg.sync1 cfg.sync2 cfg.pvtClass cfg.pvtId, 0xFFFFFFFF⟩,
    ⟨"UNRECOGNIZED_MESSAGE", headerWord cfg.sync1 cfg.sync2 cfg.pvtClass 0, 0x00FFFFFF⟩,
    ⟨"UNRECOGNIZED_CLASS", headerWord cfg.sync1 cfg.sync2 0 0, 0x0000FFFF⟩ ]

/-- "the first row with `(H & mask) = match` applies" (R74). -/
def frameRowOf (cfg : Config) (h : BitVec 32) : Option FrameRow :=
  (frameRows cfg).find? (fun r => (h &&& r.mask) == r.matchBits)

/-- The row of a framed header, by the dispatch keys of R69: class first, then id (41_extractor.md R131). -/
def frameInstr (cfg : Config) (cls id : Byte) (payload : List Byte) (c0 c1 : Byte) : Instr :=
  if cls = cfg.pvtClass then
    if id = cfg.pvtId then .navPvt payload c0 c1 else .unrecognizedMessage id payload c0 c1
  else .unrecognizedClass cls id payload c0 c1

/-- What follows the header of a frame with payload length `L`: payload, trailer, and the bytes after the frame. -/
def decodeBody (cfg : Config) (cls id : Byte) (L : Nat) (body : List Byte) : Except Reject (Instr × List Byte) :=
  match body.drop L with
  | c0 :: c1 :: rest => .ok (frameInstr cfg cls id (body.take L) c0 c1, rest)
  | _ => .error .incompleteFrame

/-- The frame at the front of `bytes`, and the bytes after it (R65, R67, R75). -/
def decodeFrame (cfg : Config) : List Byte → Except Reject (Instr × List Byte)
  | s1 :: s2 :: cls :: id :: l0 :: l1 :: body =>
    if s1 = cfg.sync1 ∧ s2 = cfg.sync2 then decodeBody cfg cls id (leU16 [l0, l1] 0).toNat body
    else .error .notFramed
  | s1 :: s2 :: _ => if s1 = cfg.sync1 ∧ s2 = cfg.sync2 then .error .shortHeader else .error .notFramed
  | _ => .error .shortHeader

/-- The instruction a request or a frame spells; a frame is read at the front of its bytes. -/
def decode (cfg : Config) : Encoded → Except Reject Instr
  | .request cmd chunk => decodeCommand cmd chunk
  | .frame bytes =>
    match decodeFrame cfg bytes with
    | .ok (i, _) => .ok i
    | .error e => .error e

/-- `FRAME(cls, id, P, c0, c1)` (R79), the layout of R65. -/
def frameBytes (cfg : Config) (cls id : Byte) (payload : List Byte) (c0 c1 : Byte) : List Byte :=
  [cfg.sync1, cfg.sync2, cls, id] ++ lengthBytes payload.length ++ payload ++ [c0, c1]

/-- The encoder, from R61 and R65. -/
def encode (cfg : Config) : Instr → Encoded
  | .ingest chunk => .request 0b001 chunk
  | .xfail => .request 0b010 []
  | .peekAlways => .request 0b011 []
  | .peekIfNew => .request 0b100 []
  | .reset => .request 0b101 []
  | .navPvt payload c0 c1 => .frame (frameBytes cfg cfg.pvtClass cfg.pvtId payload c0 c1)
  | .unrecognizedMessage id payload c0 c1 => .frame (frameBytes cfg cfg.pvtClass id payload c0 c1)
  | .unrecognizedClass cls id payload c0 c1 => .frame (frameBytes cfg cls id payload c0 c1)

/-- The encoded form of a word of spec/opcode_table.json. A command row has 3 bits (one byte; the port takes bits 2:0,
the table's mask); a frame row's word is the first frame bytes, and the bytes above it are 0 up to the smallest frame,
8 bytes (assumption log 8). -/
def encodedOfTableWord (nbits w : Nat) : Encoded :=
  if nbits ≤ 8 then .request (BitVec.ofNat 3 w) []
  else .frame (bytesOfNat (max 8 (nbits / 8)) (w % 2 ^ nbits))

/-- What the decoder reads from a table word, at the default parameters (the table's own). -/
def decodeTableWord (nbits w : Nat) : Option Instr :=
  match decode Config.default (encodedOfTableWord nbits w) with
  | .ok i => some i
  | .error _ => none

/-! The textual forms (R78, R79; assumption log 16). -/

/-- One hexadecimal digit, upper case as R78 and R79 print them. -/
def hexDigit (n : Nat) : Char := Char.ofNat (if n < 10 then 48 + n else 55 + n)

/-- A byte as two hexadecimal digits. -/
def byteText (b : Byte) : String := String.ofList [hexDigit (b.toNat / 16), hexDigit (b.toNat % 16)]

/-- Byte-sequence digits separated by one space. -/
def bytesText : List Byte → String
  | [] => ""
  | [b] => byteText b
  | b :: bs => byteText b ++ " " ++ bytesText bs

/-- A byte-sequence literal `[x0 x1 …]` (00_scope.md R7). -/
def sequenceText (bs : List Byte) : String := "[" ++ bytesText bs ++ "]"

/-- `FRAME(cls, id, P, c0, c1)` (R79). -/
def frameText (cls id : Byte) (payload : List Byte) (c0 c1 : Byte) : String :=
  "FRAME(" ++ byteText cls ++ ", " ++ byteText id ++ ", " ++ sequenceText payload ++ ", " ++ byteText c0 ++ ", "
    ++ byteText c1 ++ ")"

/-- The line of a command (R78), or the pseudo-form of a frame (R79). -/
def Instr.text (cfg : Config) : Instr → String
  | .ingest chunk => "INGEST " ++ sequenceText chunk
  | .xfail => "XFAIL"
  | .peekAlways => "PEEK_ALWAYS"
  | .peekIfNew => "PEEK_IF_NEW"
  | .reset => "RESET"
  | .navPvt payload c0 c1 => frameText cfg.pvtClass cfg.pvtId payload c0 c1
  | .unrecognizedMessage id payload c0 c1 => frameText cfg.pvtClass id payload c0 c1
  | .unrecognizedClass cls id payload c0 c1 => frameText cls id payload c0 c1

end Sys2Proof
end

