-- ==== Sys2Proof/Machine/Fetch.lean ====
section
/-! DEFINITION. Sys2Proof/Machine/Fetch.lean: where a step gets its instruction. The block has no program counter and no
program store (10_state.md R27, 20_memory.md R53): "The closest analogue of a program counter is the command sequence
itself" (R27). -/

namespace Sys2Proof.Machine

/-- The host's next transaction: nothing to do (70_reset_and_hazards.md R201), overlap (R204), a reserved code
(30_encoding.md R62), or a command (R61). -/
def fetch (s : State) : Fetched :=
  match s.host with
  | [] => .idle
  | .overlap _ _ :: _ => .stop .overlappingCommands
  | .command r :: rest =>
    match decodeCommand r.cmd r.chunk with
    | .ok i => .run i { s with host := rest }
    | .error _ => .stop (.reservedCommand r.cmd)

/-- The state in which the next step runs `e`: a request is put before the host's stream; a frame reaches the block only
as the chunk of an INGEST, so it is presented as one to an empty buffer (assumption log 8). -/
def placeEncoded (s : State) : Encoded → State
  | .request cmd chunk => { s with host := .command ⟨cmd, chunk⟩ :: s.host }
  | .frame bytes => { s with fill := 0, host := .command ⟨0b001, bytes⟩ :: s.host }

end Sys2Proof.Machine
end

