-- ==== Sys2Proof/Machine/Step.lean ====
section
/-! DEFINITION. Sys2Proof/Machine/Step.lean: one step is one command, atomic (00_scope.md R4, 20_memory.md R48). -/

namespace Sys2Proof.Machine

/-- Fetch the host's next transaction and run it; with none presented the block waits, unchanged (log 1). -/
def step (s : State) : Host.Outcome State Fault Refusal :=
  match fetch s with
  | .idle => .next s
  | .stop r => .refused r
  | .run i t => exec i t

/-- `s` with a word of spec/opcode_table.json placed where the next step fetches (log 1, log 8). -/
def State.withFetchWord (s : State) (nbits w : Nat) : State := placeEncoded s (encodedOfTableWord nbits w)

end Sys2Proof.Machine
end

