-- ==== Sys2Proof/Machine/View.lean ====
section
/-! DEFINITION. Sys2Proof/Machine/View.lean: the scaled view of the record (41_extractor.md R167). The block stores and
outputs only the raw integers; the physical value is the exact rational `raw / D`. Also the text of a response (R78). -/

namespace Sys2Proof.Machine

/-- The scaled fields of R167's table. -/
inductive ScaledField
  | lon | lat | height | hmsl | hacc | vacc | velN | velE | velD | gspeed | sacc | headMot | headAcc | pdop
  deriving DecidableEq, Repr

/-- The units of R167's table. -/
inductive PhysicalUnit
  | degrees | metres | metresPerSecond | dimensionless
  deriving DecidableEq, Repr

/-- The field's raw integer. -/
def Record.raw (r : Record) : ScaledField → Int
  | .lon => r.lon.toInt
  | .lat => r.lat.toInt
  | .height => r.height.toInt
  | .hmsl => r.hmsl.toInt
  | .hacc => r.hacc.toNat
  | .vacc => r.vacc.toNat
  | .velN => r.velN.toInt
  | .velE => r.velE.toInt
  | .velD => r.velD.toInt
  | .gspeed => r.gspeed.toInt
  | .sacc => r.sacc.toNat
  | .headMot => r.headMot.toInt
  | .headAcc => r.headAcc.toNat
  | .pdop => r.pdop.toNat

/-- The divisor D. -/
def ScaledField.divisor : ScaledField → Nat
  | .lon | .lat => 10 ^ 7
  | .height | .hmsl | .hacc | .vacc => 10 ^ 3
  | .velN | .velE | .velD | .gspeed | .sacc => 10 ^ 3
  | .headMot | .headAcc => 10 ^ 5
  | .pdop => 10 ^ 2

/-- The unit. -/
def ScaledField.unit : ScaledField → PhysicalUnit
  | .lon | .lat => .degrees
  | .height | .hmsl | .hacc | .vacc => .metres
  | .velN | .velE | .velD | .gspeed | .sacc => .metresPerSecond
  | .headMot | .headAcc => .degrees
  | .pdop => .dimensionless

/-- "the exact rational `raw / D`". -/
def Record.scaled (r : Record) (f : ScaledField) : Rat := mkRat (r.raw f) f.divisor

/-- `has_new=1` or `has_new=0` (30_encoding.md R78). -/
def hasNewText (b : Bool) : String := if b then "has_new=1" else "has_new=0"

/-- The response's text (R78): `-> status`, `-> rec`, `-> has_new=1, rec`, `-> has_new=0`, and nothing for an absent
response. `recText` prints a record, whose textual form R78 does not fix (log 16). -/
def Response.text (recText : Record → String) (r : Response) : String :=
  match r.status, r.hasNew, r.recOut with
  | some st, _, _ => "-> " ++ st.name
  | none, some b, some x => "-> " ++ hasNewText b ++ ", " ++ recText x
  | none, some b, none => "-> " ++ hasNewText b
  | none, none, some x => "-> " ++ recText x
  | none, none, none => ""

end Sys2Proof.Machine
end

