-- ==== Sys2Proof/Safety.lean ====
section
/-! DEFINITION. Sys2Proof/Safety.lean: the terms claims are stated in: the invariant, the host's contract, what can be
observed, and the block read over byte lists instead of an indexed buffer. Nothing here is executed by a step. -/

namespace Sys2Proof.Machine

/-! ### The invariant -/

/-- The buffer is in canonical form and has no index outside `0 .. BUF_CAP-1` (20_memory.md R40); `fill <= BUF_CAP`
(10_state.md R22, R30 I1). R30 I3 holds by the type FixType. -/
abbrev State.Inv (s : State) : Prop :=
  Memory.wf s.buf = true ∧ Memory.below s.cfg.bufCap s.buf = true ∧ s.fill ≤ s.cfg.bufCap

/-! ### The host -/

/-- A transaction within the host's contract: one at a time (70_reset_and_hazards.md R204), no reserved code
(30_encoding.md R62), and a chunk of at most BUF_CAP bytes (R60). -/
def HostEvent.inContract (cfg : Config) : HostEvent → Bool
  | .overlap _ _ => false
  | .command r =>
    match decodeCommand r.cmd r.chunk with
    | .ok i => i.wf cfg
    | .error _ => false

/-- Every transaction still to come is within the contract. -/
abbrev State.hostInContract (s : State) : Prop := ∀ e ∈ s.host, e.inContract s.cfg = true

/-- INGEST of each chunk in turn: the state after the last, if no INGEST of them answered BUF_OVERFLOW. -/
def deliverAll : List (List Byte) → State → Option State
  | [], s => some s
  | c :: cs, s =>
    match exec (.ingest c) s with
    | .next t => if t.response.status = some .bufOverflow then none else deliverAll cs t
    | .fault _ => none
    | .refused _ => none

/-! ### What can be observed -/

/-- The states differ at most in the stale bytes `buf[fill..BUF_CAP)` (10_state.md R23). -/
abbrev State.sameButStale (s t : State) : Prop :=
  s.cfg = t.cfg ∧ s.fill = t.fill ∧ (∀ i, i < s.fill → Memory.read s.buf i = Memory.read t.buf i) ∧
    s.record = t.record ∧ s.fresh = t.fresh ∧ s.host = t.host ∧ s.response = t.response

/-- Two outcomes of the same kind whose states differ at most in stale bytes. -/
def outcomesAgree (o o' : Host.Outcome State Fault Refusal) : Prop :=
  (∃ s t, o = .next s ∧ o' = .next t ∧ s.sameButStale t) ∨ (∃ r, o = .refused r ∧ o' = .refused r)

/-- Every byte of memory reads as before. -/
def State.sameMemory (s t : State) : Prop := ∀ i, Memory.read t.buf i = Memory.read s.buf i

/-- The record, the flag and the response of `t` are those of `v`. -/
def State.sameAnswer (t v : State) : Prop :=
  t.record = v.record ∧ t.fresh = v.fresh ∧ t.response = v.response

/-! ### The wire format as numbers -/

/-- The number whose bytes, least significant first, are the list (20_memory.md R43). -/
def leNum : List Byte → Nat
  | [] => 0
  | b :: bs => b.toNat + 256 * leNum bs

/-- `n` bytes of `P` from offset `o`, as an unsigned number. -/
def unsignedAt (P : List Byte) (o n : Nat) : Nat := leNum ((P.drop o).take n)

/-- Four bytes of `P` from offset `o`, as a two's-complement number (00_scope.md R8). -/
def signedAt (P : List Byte) (o : Nat) : Int :=
  if 2 ^ 31 ≤ unsignedAt P o 4 then (unsignedAt P o 4 : Int) - 2 ^ 32 else unsignedAt P o 4

/-- The regions of the payload the fields read, as (offset, size) (30_encoding.md R70). -/
def payloadLayout (cfg : Config) : List (Nat × Nat) :=
  [(0, 4), (4, 2), (6, 1), (7, 1), (8, 1), (9, 1), (10, 1), (11, 1), (12, 4), (16, 4), (20, 1), (21, 1), (22, 1), (23, 1)]
    ++ [(24, 4), (28, 4), (32, 4), (36, 4), (40, 4), (44, 4), (48, 4), (52, 4), (56, 4), (60, 4), (64, 4), (68, 4)]
    ++ [(72, 4), (cfg.pdopOffset, 2)]

/-- The sample payload `PV` of 41_extractor.md and 95_test_vectors.md §2, 92 bytes. -/
def samplePayload : List Byte :=
  [0x00, 0xCA, 0x5B, 0x07, 0xEA, 0x07, 0x0B, 0x0B, 0x0E, 0x1F, 0x05, 0x37, 0x19, 0x00, 0x00, 0x00]
    ++ [0xC7, 0xCF, 0xFF, 0xFF, 0x03, 0x01, 0xEA, 0x0C, 0x15, 0xCD, 0x5B, 0x07, 0xB5, 0x34, 0xDC, 0xEB]
    ++ [0x6E, 0xB2, 0x00, 0x00, 0x39, 0x30, 0x00, 0x00, 0xDC, 0x05, 0x00, 0x00, 0xC4, 0x09, 0x00, 0x00]
    ++ [0x06, 0xFF, 0xFF, 0xFF, 0xE8, 0x03, 0x00, 0x00, 0x05, 0x00, 0x00, 0x00, 0x07, 0x04, 0x00, 0x00]
    ++ [0xB8, 0xE7, 0x73, 0x00, 0x2C, 0x01, 0x00, 0x00, 0xF0, 0x49, 0x02, 0x00, 0x7D, 0x00, 0x00, 0x00]
    ++ List.replicate 12 0x00

/-! ### The block over byte lists

A second reading of 40_assembler.md, independent of indices, copies and loop passes: the valid bytes are one list. -/

/-- Step 4 on a list: a head that is not the marker is dropped byte by byte as long as a SYNC1 stands behind it (R104). -/
def resyncList (cfg : Config) : List Byte → List Byte
  | x :: y :: rest =>
    if x = cfg.sync1 ∧ y = cfg.sync2 then x :: y :: rest
    else if cfg.sync1 ∈ y :: rest then resyncList cfg (y :: rest)
    else x :: y :: rest
  | l => l

/-- The list begins with the start marker. -/
def framedList (cfg : Config) : List Byte → Bool
  | x :: y :: _ => x == cfg.sync1 && y == cfg.sync2
  | _ => false

/-- The list holds SYNC1 immediately followed by SYNC2 somewhere. -/
def hasMarker (cfg : Config) : List Byte → Bool
  | x :: y :: rest => (x == cfg.sync1 && y == cfg.sync2) || hasMarker cfg (y :: rest)
  | _ => false

/-- What the list machine of INGEST answers: the valid bytes after it, its status, and the frame it decoded. -/
structure Ingested where
  /-- The valid bytes `buf[0..fill)` after the command. -/
  bytes : List Byte
  /-- The frame handed to DECODE, if one was complete. -/
  frame : Option Instr
  /-- The chunk did not fit. -/
  overflow : Bool
  deriving DecidableEq, Repr

/-- INGEST of `chunk` with valid bytes `bytes` (R100), by the wire decoder instead of indexed reads. -/
def ingestList (cfg : Config) (chunk bytes : List Byte) : Ingested :=
  if chunk = [] then ⟨bytes, none, false⟩
  else if cfg.bufCap < bytes.length + chunk.length then ⟨[], none, true⟩
  else
    match decodeFrame cfg (resyncList cfg (bytes ++ chunk)) with
    | .ok (i, rest) => ⟨rest, some i, false⟩
    | .error _ => ⟨resyncList cfg (bytes ++ chunk), none, false⟩

end Sys2Proof.Machine
end

