-- ==== Sys2Proof/Certificates/Slice0/Obligations.lean ====
section
/-! DEFINITION. Sys2Proof/Certificates/Slice0/Obligations.lean: the statements for the provers, from the numbered rules of
spec/. No statement fixes the parameters unless it says so: `s.cfg` ranges over every choice of them. -/

open Sys2Proof
open Sys2Proof.Machine

/-! ## The command interface -/

/-- R61: each command code selects its command; the chunk is INGEST's operand and nobody else's; and the encoder presents
the same code. -/
def Obligations.CommandCodesSelectOneCommandEach : Prop :=
  ∀ (cfg : Config) (chunk : List Byte),
    decodeCommand 0b001 chunk = .ok (.ingest chunk) ∧ decodeCommand 0b010 chunk = .ok .xfail ∧
      decodeCommand 0b011 chunk = .ok .peekAlways ∧ decodeCommand 0b100 chunk = .ok .peekIfNew ∧
      decodeCommand 0b101 chunk = .ok .reset ∧
      (∀ cmd, cmd = 0b000 ∨ cmd = 0b110 ∨ cmd = 0b111 → decodeCommand cmd chunk = .error (.reservedCommand cmd)) ∧
      encode cfg (.ingest chunk) = .request 0b001 chunk ∧ encode cfg .xfail = .request 0b010 [] ∧
      encode cfg .peekAlways = .request 0b011 [] ∧ encode cfg .peekIfNew = .request 0b100 [] ∧
      encode cfg .reset = .request 0b101 []

/-- R62: a transaction with a reserved code is refused, whatever the state and the chunk. -/
def Obligations.ReservedCodesAreRefused : Prop :=
  ∀ (s : State) (r : Request) (rest : List HostEvent), s.host = .command r :: rest →
    (step s = .refused (.reservedCommand r.cmd) ↔ r.cmd = 0b000 ∨ r.cmd = 0b110 ∨ r.cmd = 0b111)

/-- R204: overlapping commands are refused, whatever they are. -/
def Obligations.OverlappingCommandsAreRefused : Prop :=
  ∀ (s : State) (r r' : Request) (rest : List HostEvent), s.host = .overlap r r' :: rest →
    step s = .refused .overlappingCommands

/-- A step runs the decoded instruction: exec of it, at the state whose transaction has been taken. -/
def Obligations.StepRunsDecodedCommand : Prop :=
  ∀ (s : State) (r : Request) (rest : List HostEvent) (i : Instr), s.host = .command r :: rest →
    decodeCommand r.cmd r.chunk = .ok i → step s = exec i { s with host := rest }

/-- The model's choice, assumption log 1: with no transaction presented a step changes nothing. -/
def Obligations.StepWaitsForTheHost : Prop :=
  ∀ s : State, s.host = [] → step s = .next s

/-- A table word placed by `withFetchWord` is what the next step runs: a command as itself; a frame header (L = 0) through
the INGEST that delivers it (the model's choice, assumption log 8). -/
def Obligations.PlacedTableWordIsRunNext : Prop :=
  ∀ (s : State) (w : Nat) (i : Instr),
    (∀ nbits, nbits ≤ 8 → decodeTableWord nbits w = some i → step (s.withFetchWord nbits w) = exec i s) ∧
      (s.cfg = Config.default → Memory.wf s.buf = true → decodeTableWord 32 w = some i →
        ∃ t v, step (s.withFetchWord 32 w) = .next t ∧ exec i s = .next v ∧ t.sameAnswer v ∧ t.fill = 0 ∧
          t.host = s.host)

/-- One word per table row, at the default parameters: its command code (R61, R62) or its header bits (R65, R74). The
operands the row does not fix (chunk `[]`, payload `[]`, trailer 0 0) are the model's choice, a DESIGN CHOICE of
assumption log 8: a table word is laid out with zero bytes above it, up to 8 bytes for a frame. The last clause rests on no
such layout: a frame with a payload and two bytes behind it, every byte written out from R65. -/
def Obligations.SampleWordsDecodeToTheirRows : Prop :=
  decodeTableWord 8 0x1 = some (.ingest []) ∧ decodeTableWord 8 0x2 = some .xfail ∧
    decodeTableWord 8 0x3 = some .peekAlways ∧ decodeTableWord 8 0x4 = some .peekIfNew ∧
    decodeTableWord 8 0x5 = some .reset ∧ decodeTableWord 8 0x0 = none ∧ decodeTableWord 8 0x6 = none ∧
    decodeTableWord 8 0x7 = none ∧ decodeTableWord 32 0x070162B5 = some (.navPvt [] 0 0) ∧
    decodeTableWord 32 0x020162B5 = some (.unrecognizedMessage 0x02 [] 0 0) ∧
    decodeTableWord 32 0x010A62B5 = some (.unrecognizedClass 0x0A 0x01 [] 0 0) ∧
    decodeTableWord 32 0x010A62B4 = none ∧
    decodeFrame Config.default [0xB5, 0x62, 0x0A, 0x01, 0x01, 0x00, 0x99, 0xAA, 0xBB, 0x00, 0x11] =
      .ok (.unrecognizedClass 0x0A 0x01 [0x99] 0xAA 0xBB, [0x00, 0x11])

/-- R60: which response fields each instruction's answer defines; the others are absent. A frame row's status is the one
INGEST hands on. -/
def Obligations.ResponseFieldsAreTheCommands : Prop :=
  ∀ (i : Instr) (s t : State), exec i s = .next t →
    match i with
    | .peekAlways => t.response.status = none ∧ t.response.hasNew = none ∧ t.response.recOut = some s.record
    | .peekIfNew => t.response.status = none ∧ t.response.hasNew = some s.fresh ∧
        t.response.recOut = if s.fresh then some s.record else none
    | .reset => t.response = Response.absent
    | _ => (∃ st, t.response.status = some st) ∧ t.response.hasNew = none ∧ t.response.recOut = none

/-- R64: the status codes, six names for the codes 0 to 5; 6 and 7 are no status. -/
def Obligations.StatusCodesAreZeroToFive : Prop :=
  Status.code .ok = 0 ∧ Status.code .bufOverflow = 1 ∧ Status.code .unrecognizedClass = 2 ∧
    Status.code .unrecognizedMessage = 3 ∧ Status.code .transportFailure = 4 ∧ Status.code .shortPayload = 5 ∧
    (∀ st : Status, st.code ≠ 6 ∧ st.code ≠ 7) ∧ (∀ st st' : Status, st.code = st'.code → st = st')

/-! ## The wire format -/

/-- The readers are the little-endian sums, exact, and `i32` is two's complement: R8 and R43 for a read inside `B`. The
statement covers every offset; that a byte outside `B` reads as 0 is the model's own, not R8's (DEDUCED, assumption log 10),
and no field rule reads there. -/
def Obligations.LittleEndianReadersAreExact : Prop :=
  ∀ (B : List Byte) (o : Nat),
    (leU8 B o).toNat = (B.getD o 0).toNat ∧
      (leU16 B o).toNat = (B.getD o 0).toNat + 256 * (B.getD (o + 1) 0).toNat ∧
      (leU32 B o).toNat = (B.getD o 0).toNat + 2 ^ 8 * (B.getD (o + 1) 0).toNat + 2 ^ 16 * (B.getD (o + 2) 0).toNat
        + 2 ^ 24 * (B.getD (o + 3) 0).toNat ∧
      (leI32 B o).toInt =
        (if 2 ^ 31 ≤ (leU32 B o).toNat then ((leU32 B o).toNat : Int) - 2 ^ 32 else ((leU32 B o).toNat : Int))

/-- R74: the header word is le_u32 of the first four bytes; the frame rows tried in table order by mask and match answer the row DECODE's class and id tests choose; a header
without the marker matches no row; at the default parameters the rows' words are the table's. -/
def Obligations.HeaderRowsInOrderAgreeWithDispatch : Prop :=
  (∀ b0 b1 b2 b3 : Byte, headerWord b0 b1 b2 b3 = leU32 [b0, b1, b2, b3] 0) ∧
  (∀ (cfg : Config) (b0 b1 cls id c0 c1 : Byte) (P : List Byte),
    (frameRowOf cfg (headerWord b0 b1 cls id)).map FrameRow.mnemonic =
      if b0 = cfg.sync1 ∧ b1 = cfg.sync2 then
        some (match frameInstr cfg cls id P c0 c1 with
          | .navPvt _ _ _ => "NAV_PVT"
          | .unrecognizedMessage _ _ _ _ => "UNRECOGNIZED_MESSAGE"
          | .unrecognizedClass _ _ _ _ _ => "UNRECOGNIZED_CLASS"
          | _ => "")
      else none) ∧
    (frameRows Config.default).map (fun r => (r.matchBits, r.mask)) =
      [(0x070162B5, 0xFFFFFFFF), (0x000162B5, 0x00FFFFFF), (0x000062B5, 0x0000FFFF)]

/-- Decode of encode is the instruction, for every instruction, every operand and every choice of parameters; a frame may
stand before any further bytes. -/
def Obligations.DecodeOfEncodeIsTheInstruction : Prop :=
  ∀ (cfg : Config) (i : Instr), i.wf cfg = true → decode cfg (encode cfg i) = .ok i ∧
    ∀ bytes rest, encode cfg i = .frame bytes → decodeFrame cfg (bytes ++ rest) = .ok (i, rest)

/-- The other direction. A frame the decoder accepts is the encoding of a well-formed frame instruction, and what is left
over is what follows the frame. A command it accepts is the encoding of a command with that code, and of that chunk for
INGEST; well-formedness is not said of it, since an INGEST of more than BUF_CAP bytes decodes (R63; DEDUCED, assumption
log 11). So every frame and every command code has one meaning. -/
def Obligations.DecoderAcceptsOnlyEncodings : Prop :=
  (∀ (cfg : Config) (bytes rest : List Byte) (i : Instr), decodeFrame cfg bytes = .ok (i, rest) →
    i.wf cfg = true ∧ i.isCommand = false ∧ ∃ own, encode cfg i = .frame own ∧ bytes = own ++ rest) ∧
  (∀ (cfg : Config) (cmd : BitVec 3) (chunk : List Byte) (i : Instr), decodeCommand cmd chunk = .ok i →
    i.isCommand = true ∧ ∃ own, encode cfg i = .request cmd own ∧ (cmd = 0b001 → own = chunk))

/-- R65, R42: every byte of a frame by the region its index lies in. -/
def Obligations.FrameBytesByRegion : Prop :=
  ∀ (cfg : Config) (cls id c0 c1 : Byte) (P : List Byte), P.length < 65536 →
    (frameBytes cfg cls id P c0 c1).length = P.length + 8 ∧
    ∀ j, j < P.length + 8 →
      match regionOf P.length j with
      | .marker => (frameBytes cfg cls id P c0 c1).getD j 0 = if j = 0 then cfg.sync1 else cfg.sync2
      | .cls => (frameBytes cfg cls id P c0 c1).getD j 0 = cls
      | .id => (frameBytes cfg cls id P c0 c1).getD j 0 = id
      | .length => ((frameBytes cfg cls id P c0 c1).getD j 0).toNat =
          if j = 4 then P.length % 256 else P.length / 256
      | .payload => (frameBytes cfg cls id P c0 c1).getD j 0 = P.getD (j - 6) 0
      | .trailer => (frameBytes cfg cls id P c0 c1).getD j 0 = if j = P.length + 6 then c0 else c1
      | .afterFrame => False

/-! ## The buffer -/

/-- R46: Append, RemoveFront and FindFrom, byte by byte and on `fill`; the bytes RemoveFront leaves behind keep their old
values. -/
def Obligations.BufferPrimitivesMoveTheirBytes : Prop :=
  ∀ (s : State) (c : List Byte) (k start : Nat) (b : Byte), Memory.wf s.buf = true → k ≤ s.fill →
    ((s.append c).fill = s.fill + c.length ∧
      ∀ j, Memory.read (s.append c).buf j =
        if s.fill ≤ j ∧ j < s.fill + c.length then c.getD (j - s.fill) 0 else Memory.read s.buf j) ∧
    ((s.removeFront k).fill = s.fill - k ∧
      ∀ j, Memory.read (s.removeFront k).buf j =
        if j < s.fill - k then Memory.read s.buf (k + j) else Memory.read s.buf j) ∧
    (∀ p, s.findFrom start b = some p ↔
      start ≤ p ∧ p < s.fill ∧ Memory.read s.buf p = b ∧ ∀ q, start ≤ q → q < p → Memory.read s.buf q ≠ b) ∧
    (s.findFrom start b = none ↔ ∀ q, start ≤ q → q < s.fill → Memory.read s.buf q ≠ b)

/-- R105: a pass removes at least one byte; the resync needs at most `fill - 1` passes and ends in exactly one of its three outcomes; in (c) the buffer is
held until a chunk brings a SYNC1. -/
def Obligations.ResyncEndsInOneOfThreeOutcomes : Prop :=
  ∀ s : State, Memory.wf s.buf = true →
    (∀ p, s.findFrom 1 s.cfg.sync1 = some p → 1 ≤ p ∧ p < s.fill) ∧
    (∀ n, s.fill - 1 ≤ n → s.resyncPasses n = s.resync) ∧
    (let r := s.resync
     let noCandidate := ∀ p, 1 ≤ p → p < r.fill → Memory.read r.buf p ≠ s.cfg.sync1
     (r.fill < 2 ∧ r.framed = false) ∨ (2 ≤ r.fill ∧ r.framed = true) ∨
       (2 ≤ r.fill ∧ r.framed = false ∧ noCandidate ∧
         ∀ c t, s.cfg.sync1 ∉ c → r.fill + c.length ≤ s.cfg.bufCap → exec (.ingest c) r = .next t →
           t.contents = r.contents ++ c))

/-- R104 with D8 and D9: what resync drops is the front of the valid bytes, at no index of which the marker begins, so no
marker is ever skipped; where it drops anything it stops at a SYNC1; and it leaves the cell, the parameters and the host's
stream. -/
def Obligations.ResyncDropsNoMarker : Prop :=
  ∀ s : State, Memory.wf s.buf = true →
    ∃ dropped, s.contents = dropped ++ s.resync.contents ∧
      (∀ n, n < dropped.length → framedList s.cfg (s.contents.drop n) = false) ∧
      (dropped ≠ [] → s.resync.contents.head? = some s.cfg.sync1) ∧
      s.resync.cfg = s.cfg ∧ s.resync.record = s.record ∧ s.resync.fresh = s.fresh ∧ s.resync.host = s.host

/-! ## INGEST and XFAIL -/

/-- R101: the empty chunk changes no state and answers OK, also with a complete frame buffered. -/
def Obligations.EmptyChunkChangesNothing : Prop :=
  ∀ s : State, exec (.ingest []) s = .next { s with response := Response.ofStatus .ok }

/-- R102: a chunk that does not fit empties the buffer, is itself dropped, and answers BUF_OVERFLOW; `rec` and `fresh` are
unchanged. A chunk that exactly fits, or less, is no overflow; one longer than BUF_CAP is one for any `fill` (R63). -/
def Obligations.OverflowDropsEverything : Prop :=
  ∀ (c : List Byte) (s : State), c ≠ [] →
    (s.cfg.bufCap < s.fill + c.length →
      exec (.ingest c) s = .next { s with fill := 0, response := Response.ofStatus .bufOverflow }) ∧
    (s.fill + c.length ≤ s.cfg.bufCap →
      ∃ t, exec (.ingest c) s = .next t ∧ t.response.status ≠ some .bufOverflow) ∧
    (s.cfg.bufCap < c.length →
      exec (.ingest c) s = .next { s with fill := 0, response := Response.ofStatus .bufOverflow })

/-- R106, R107: with fewer than 6 bytes, an unframed head, or fewer than T bytes, INGEST answers OK with the buffer as
step 4 left it; otherwise the frame is complete. -/
def Obligations.IngestWaitsForACompleteFrame : Prop :=
  ∀ (c : List Byte) (s : State), c ≠ [] → s.fill + c.length ≤ s.cfg.bufCap →
    let u := (s.append c).resync
    let T := (Memory.read u.buf 4).toNat + 256 * (Memory.read u.buf 5).toNat + 8
    (u.fill < 6 ∨ u.framed = false ∨ u.fill < T →
      exec (.ingest c) s = .next { u with response := Response.ofStatus .ok } ∧ u.record = s.record ∧
        u.fresh = s.fresh) ∧
    (6 ≤ u.fill → u.framed = true → T ≤ u.fill → u.frameComplete = true ∧ u.frameLength = T)

/-- R108: for a complete frame INGEST runs the row of the frame's class and id on the payload, and then removes exactly T
bytes whatever the row answered, handing its status on. -/
def Obligations.CompleteFrameIsDecodedThenRemoved : Prop :=
  ∀ (c : List Byte) (s : State) (c0 c1 : Byte), c ≠ [] → s.fill + c.length ≤ s.cfg.bufCap → Memory.wf s.buf = true →
    let u := (s.append c).resync
    let L := (Memory.read u.buf 4).toNat + 256 * (Memory.read u.buf 5).toNat
    6 ≤ u.fill → u.framed = true → L + 8 ≤ u.fill →
      ∃ v t, exec (frameInstr u.cfg (Memory.read u.buf 2) (Memory.read u.buf 3) (u.bytes 6 (6 + L)) c0 c1) u = .next v ∧
        exec (.ingest c) s = .next t ∧ t.sameAnswer v ∧ t.contents = u.contents.drop (L + 8) ∧
        t.fill = u.fill - (L + 8)

/-- R109: one frame per command. Of two frames delivered in one chunk to an empty buffer, the first INGEST processes one; an
empty chunk processes none; the next non-empty chunk processes the second. -/
def Obligations.OneFramePerIngest : Prop :=
  ∀ (s : State) (i j : Instr) (bi bj c : List Byte), s.Inv → s.fill = 0 → i.wf s.cfg = true → j.wf s.cfg = true →
    encode s.cfg i = .frame bi → encode s.cfg j = .frame bj → c ≠ [] → (bi ++ bj).length ≤ s.cfg.bufCap →
    (bj ++ c).length ≤ s.cfg.bufCap →
      ∃ v t w x y, exec i s = .next v ∧ exec (.ingest (bi ++ bj)) s = .next t ∧ t.sameAnswer v ∧ t.contents = bj ∧
        exec (.ingest []) t = .next w ∧ w.contents = bj ∧ w.record = t.record ∧ w.fresh = t.fresh ∧
        exec j w = .next x ∧ exec (.ingest c) w = .next y ∧ y.sameAnswer x ∧ y.contents = c

/-- R110: the statuses of INGEST. BUF_OVERFLOW exactly when the chunk is not empty and does not fit; the row's status when
a frame was complete; OK otherwise; never TRANSPORT_FAILURE. -/
def Obligations.IngestStatusBySteps : Prop :=
  ∀ (c : List Byte) (s : State), ∃ t st, exec (.ingest c) s = .next t ∧ t.response = Response.ofStatus st ∧
    st ≠ .transportFailure ∧
    (st = .bufOverflow ↔ c ≠ [] ∧ s.cfg.bufCap < s.fill + c.length) ∧
    (st = .unrecognizedClass ∨ st = .unrecognizedMessage ∨ st = .shortPayload →
      c ≠ [] ∧ s.fill + c.length ≤ s.cfg.bufCap ∧ (s.append c).resync.frameComplete = true) ∧
    (c = [] ∨ (s.fill + c.length ≤ s.cfg.bufCap ∧ (s.append c).resync.frameComplete = false) → st = .ok) ∧
    (c ≠ [] → s.fill + c.length ≤ s.cfg.bufCap → (s.append c).resync.frameComplete = true →
      let u := (s.append c).resync
      ∃ v, exec (frameInstr u.cfg (Memory.read u.buf 2) (Memory.read u.buf 3) u.payload 0 0) u = .next v ∧
        v.response = Response.ofStatus st)

/-- R111: XFAIL reports TRANSPORT_FAILURE and neither reads nor writes the state; a failed transport read is XFAIL, a
successful one INGEST of the bytes read. -/
def Obligations.XfailOnlyReports : Prop :=
  (∀ s : State, exec .xfail s = .next { s with response := Response.ofStatus .transportFailure }) ∧
    (∀ chunk, decodeCommand 0b010 chunk = .ok .xfail) ∧
    TransportRead.command .failed = .xfail ∧ ∀ bytes, TransportRead.command (.delivered bytes) = .ingest bytes

/-- R112: INGEST and XFAIL keep `0 <= fill <= BUF_CAP`, from any state that meets it. -/
def Obligations.FillStaysWithinCapacity : Prop :=
  ∀ (c : List Byte) (s : State), s.fill ≤ s.cfg.bufCap →
    (∃ t, exec (.ingest c) s = .next t ∧ t.fill ≤ t.cfg.bufCap ∧ t.cfg = s.cfg) ∧
      ∃ t, exec .xfail s = .next t ∧ t.fill ≤ t.cfg.bufCap ∧ t.cfg = s.cfg

/-- R113: a framed head with T > BUF_CAP is never complete. A non-empty chunk that fits is appended, OK, and the head is
still there; one that does not fit overflows. -/
def Obligations.OversizedFrameHoldsUntilOverflow : Prop :=
  ∀ (c : List Byte) (s : State), s.Inv → s.framed = true → 6 ≤ s.fill →
    s.cfg.bufCap < s.frameLength → c ≠ [] → s.frameComplete = false ∧
    (s.fill + c.length ≤ s.cfg.bufCap →
      ∃ t, exec (.ingest c) s = .next t ∧ t.response = Response.ofStatus .ok ∧ t.contents = s.contents ++ c ∧
        t.framed = true ∧ t.frameLength = s.frameLength ∧ t.cfg = s.cfg ∧ t.record = s.record ∧ t.fresh = s.fresh) ∧
    (s.cfg.bufCap < s.fill + c.length →
      ∃ t, exec (.ingest c) s = .next t ∧ t.response = Response.ofStatus .bufOverflow ∧ t.fill = 0)

/-- R114: garbage stays until a SYNC1 stands behind it: unframed bytes with no SYNC1 at an index >= 1 are all kept. -/
def Obligations.GarbageIsKeptUntilACandidate : Prop :=
  ∀ (c : List Byte) (s : State), Memory.wf s.buf = true → c ≠ [] → s.fill + c.length ≤ s.cfg.bufCap →
    framedList s.cfg (s.contents ++ c) = false → s.cfg.sync1 ∉ (s.contents ++ c).drop 1 →
      ∃ t, exec (.ingest c) s = .next t ∧ t.contents = s.contents ++ c ∧ t.response = Response.ofStatus .ok ∧
        t.record = s.record ∧ t.fresh = s.fresh

/-- R115: a frame split anywhere decodes as the unsplit frame does, in the INGEST that delivers its last byte. -/
def Obligations.SplitFrameDecodesAsTheWhole : Prop :=
  ∀ (s : State) (i : Instr) (bytes : List Byte) (k : Nat), s.Inv → s.fill = 0 → i.wf s.cfg = true →
    encode s.cfg i = .frame bytes → bytes.length ≤ s.cfg.bufCap → 0 < k → k < bytes.length →
      ∃ u v w, exec (.ingest (bytes.take k)) s = .next u ∧ u.response = Response.ofStatus .ok ∧
        u.contents = bytes.take k ∧ u.record = s.record ∧ u.fresh = s.fresh ∧
        exec (.ingest (bytes.drop k)) u = .next v ∧ exec (.ingest bytes) s = .next w ∧
        v.sameAnswer w ∧ v.fill = 0 ∧ w.fill = 0

/-- R116, the resync property: a garbage prefix of any length without the marker, then a frame, delivered in any non-empty
chunks without overflow to an empty buffer. Once two bytes of the frame are buffered every garbage byte is gone, and the
INGEST that delivers the last byte runs the frame's row. Stated for parameters whose marker bytes differ, as the spec's
do: with SYNC1 = SYNC2 garbage ending in SYNC1 would itself complete a marker. -/
def Obligations.GarbageThenFrameIsDecoded : Prop :=
  ∀ (s : State) (i : Instr) (garbage bytes : List Byte) (chunks : List (List Byte)), s.Inv → s.fill = 0 →
    s.cfg.sync1 ≠ s.cfg.sync2 → i.wf s.cfg = true → encode s.cfg i = .frame bytes → hasMarker s.cfg garbage = false →
    (∀ c ∈ chunks, c ≠ []) →
    (∀ t, chunks.flatten = garbage ++ bytes → deliverAll chunks s = some t →
      ∃ v, exec i s = .next v ∧ t.sameAnswer v ∧ t.fill = 0) ∧
    (∀ t rest, chunks.flatten ++ rest = garbage ++ bytes → rest ≠ [] → garbage.length + 2 ≤ chunks.flatten.length →
      deliverAll chunks s = some t →
        t.contents = chunks.flatten.drop garbage.length ∧ t.record = s.record ∧ t.fresh = s.fresh)

/-- R100 as a whole, against a second reading of it over byte lists: INGEST on the indexed buffer answers what
`ingestList` answers on the valid bytes, and changes the cell only as the decoded frame's row does. -/
def Obligations.IngestRefinesTheByteListMachine : Prop :=
  ∀ (c : List Byte) (s : State), s.Inv →
    let a := ingestList s.cfg c s.contents
    ∃ t, exec (.ingest c) s = .next t ∧ t.contents = a.bytes ∧ t.cfg = s.cfg ∧ t.host = s.host ∧
      match a.frame with
      | some i => ∃ v, exec i s = .next v ∧ t.sameAnswer v
      | none => t.record = s.record ∧ t.fresh = s.fresh ∧
          t.response = Response.ofStatus (if a.overflow then .bufOverflow else .ok)

/-- R117: INGEST writes `rec` and `fresh` only through a successful decode of a recognized complete frame with payload
enough; every other status, and OK without a frame, leaves both, and so does XFAIL. -/
def Obligations.IngestWritesTheCellOnlyByDecoding : Prop :=
  ∀ (c : List Byte) (s t : State),
    (exec (.ingest c) s = .next t →
      (t.record = s.record ∧ t.fresh = s.fresh) ∨
      (t.response = Response.ofStatus .ok ∧ t.fresh = true ∧
        let u := (s.append c).resync
        u.frameComplete = true ∧ Memory.read u.buf 2 = s.cfg.pvtClass ∧ Memory.read u.buf 3 = s.cfg.pvtId ∧
          s.cfg.pvtMinLen ≤ u.payloadLength ∧ t.record = extractRecord s.cfg u.payload)) ∧
    (exec .xfail s = .next t → t.record = s.record ∧ t.fresh = s.fresh)

/-- The frame of INGEST: parameters and the host's stream stay; a byte of memory at an index no byte was appended or moved
to (at or above `fill + |chunk|`, and every byte on the empty chunk or an overflow) reads as before. -/
def Obligations.IngestFrame : Prop :=
  ∀ (c : List Byte) (s t : State), Memory.wf s.buf = true → exec (.ingest c) s = .next t →
    t.cfg = s.cfg ∧ t.host = s.host ∧
      (∀ j, s.fill + c.length ≤ j → Memory.read t.buf j = Memory.read s.buf j) ∧
      (c = [] ∨ s.cfg.bufCap < s.fill + c.length → s.sameMemory t)

/-! ## DECODE -/

/-- R131: class first, then id, both non-fatal: DECODE's row reports and leaves the cell, and the INGEST that delivers such a
frame removes it. -/
def Obligations.UnrecognizedFramesAreReportedAndRemoved : Prop :=
  ∀ (s : State) (cls id c0 c1 : Byte) (P : List Byte),
    (cls ≠ s.cfg.pvtClass →
      exec (.unrecognizedClass cls id P c0 c1) s = .next { s with response := Response.ofStatus .unrecognizedClass } ∧
      frameInstr s.cfg cls id P c0 c1 = .unrecognizedClass cls id P c0 c1) ∧
    (id ≠ s.cfg.pvtId →
      exec (.unrecognizedMessage id P c0 c1) s = .next { s with response := Response.ofStatus .unrecognizedMessage } ∧
      frameInstr s.cfg s.cfg.pvtClass id P c0 c1 = .unrecognizedMessage id P c0 c1) ∧
    (s.Inv → s.fill = 0 → P.length + 8 ≤ s.cfg.bufCap → P.length < 65536 →
      (cls ≠ s.cfg.pvtClass ∨ id ≠ s.cfg.pvtId) →
      ∃ t, exec (.ingest (frameBytes s.cfg cls id P c0 c1)) s = .next t ∧ t.fill = 0 ∧ t.record = s.record ∧
        t.fresh = s.fresh ∧
        t.response = Response.ofStatus (if cls ≠ s.cfg.pvtClass then .unrecognizedClass else .unrecognizedMessage))

/-- R132: a recognized frame below PVT_MIN_LEN answers SHORT_PAYLOAD, the cell unchanged and the frame removed; otherwise
every field lies within the first PVT_MIN_LEN bytes of the payload. -/
def Obligations.ShortPayloadIsRejected : Prop :=
  ∀ (s : State) (P : List Byte) (c0 c1 : Byte),
    (P.length < s.cfg.pvtMinLen →
      exec (.navPvt P c0 c1) s = .next { s with response := Response.ofStatus .shortPayload }) ∧
    (P.length < s.cfg.pvtMinLen → s.Inv → s.fill = 0 → P.length + 8 ≤ s.cfg.bufCap → P.length < 65536 →
      ∃ t, exec (.ingest (frameBytes s.cfg s.cfg.pvtClass s.cfg.pvtId P c0 c1)) s = .next t ∧ t.fill = 0 ∧
        t.record = s.record ∧ t.fresh = s.fresh ∧ t.response = Response.ofStatus .shortPayload) ∧
    (s.cfg.pvtMinLen ≤ P.length → ∀ f ∈ payloadLayout s.cfg, f.1 + f.2 ≤ s.cfg.pvtMinLen ∧ f.1 + f.2 ≤ P.length) ∧
    Config.default.pvtMinLen = 76

/-- R133: the record is a function of the first PVT_MIN_LEN payload bytes alone: not of the trailer, the bytes beyond, the
old record, the flag, the buffer or anything else in the state. -/
def Obligations.ExtractionDependsOnThePayloadAlone : Prop :=
  ∀ (s s' : State) (P P' : List Byte) (c0 c1 d0 d1 : Byte), s.cfg = s'.cfg → s.cfg.pvtMinLen ≤ P.length →
    P'.take s.cfg.pvtMinLen = P.take s.cfg.pvtMinLen →
      ∃ t t', exec (.navPvt P c0 c1) s = .next t ∧ exec (.navPvt P' d0 d1) s' = .next t' ∧ t.record = t'.record

/-- R135 to R146: the time fields, the fix type and the fix-flags byte of a decoded record, with the examples on PV. -/
def Obligations.TimeFieldsAreExtracted : Prop :=
  (∀ (s : State) (P : List Byte) (c0 c1 : Byte), s.cfg.pvtMinLen ≤ P.length →
    ∃ t, exec (.navPvt P c0 c1) s = .next t ∧ t.record.itow.toNat = unsignedAt P 0 4 ∧
      t.record.year.toNat = unsignedAt P 4 2 ∧ t.record.month.toNat = unsignedAt P 6 1 ∧
      t.record.day.toNat = unsignedAt P 7 1 ∧ t.record.hour.toNat = unsignedAt P 8 1 ∧
      t.record.min.toNat = unsignedAt P 9 1 ∧ t.record.sec.toNat = unsignedAt P 10 1 ∧
      t.record.validRaw.toNat = unsignedAt P 11 1 ∧ t.record.tacc.toNat = unsignedAt P 12 4 ∧
      t.record.nano.toInt = signedAt P 16 ∧
      t.record.fixType.code = (if unsignedAt P 20 1 ≤ 5 then unsignedAt P 20 1 else 0) ∧
      t.record.flagsRaw.toNat = unsignedAt P 21 1) ∧
  (let r := extractRecord Config.default samplePayload
   r.itow = 123456000 ∧ r.year = 2026 ∧ r.month = 11 ∧ r.day = 11 ∧ r.hour = 14 ∧ r.min = 31 ∧ r.sec = 5 ∧
     r.validRaw = 55 ∧ r.tacc = 25 ∧ r.nano.toInt = -12345 ∧ r.fixType = .fix3D ∧ r.flagsRaw = 1) ∧
  fixTypeOfByte 0x06 = .noFix ∧ fixTypeOfByte 0xFF = .noFix

/-- R147 to R157: the flags, the satellites, the position and the two accuracies, with the examples. -/
def Obligations.FlagAndPositionFieldsAreExtracted : Prop :=
  (∀ (s : State) (P : List Byte) (c0 c1 : Byte), s.cfg.pvtMinLen ≤ P.length →
    ∃ t, exec (.navPvt P c0 c1) s = .next t ∧ t.record.fixValid = decide (unsignedAt P 21 1 % 2 = 1) ∧
      t.record.flags2Raw.toNat = unsignedAt P 22 1 ∧
      t.record.dateValid = decide (unsignedAt P 22 1 / 64 % 2 = 1) ∧
      t.record.timeValid = decide (unsignedAt P 22 1 / 128 % 2 = 1) ∧
      t.record.numSv.toNat = unsignedAt P 23 1 ∧ t.record.lon.toInt = signedAt P 24 ∧
      t.record.lat.toInt = signedAt P 28 ∧ t.record.height.toInt = signedAt P 32 ∧
      t.record.hmsl.toInt = signedAt P 36 ∧ t.record.hacc.toNat = unsignedAt P 40 4 ∧
      t.record.vacc.toNat = unsignedAt P 44 4) ∧
  (let r := extractRecord Config.default samplePayload
   r.fixValid = true ∧ r.flags2Raw = 0xEA ∧ r.dateValid = true ∧ r.timeValid = true ∧ r.numSv = 12 ∧
     r.lon.toInt = 123456789 ∧ r.lat.toInt = -337890123 ∧ r.height.toInt = 45678 ∧ r.hmsl.toInt = 12345 ∧
     r.hacc = 1500 ∧ r.vacc = 2500) ∧
  (fixValidBit 0x01 = true ∧ fixValidBit 0xFF = true ∧ fixValidBit 0x00 = false ∧ fixValidBit 0xFE = false) ∧
  ([0xEA, 0x40, 0xC0, 0x80, 0x20, 0x3F].map dateValidBit = [true, true, true, false, false, false]) ∧
  ([0xEA, 0x80, 0xC0, 0x40, 0x20, 0x3F].map timeValidBit = [true, true, true, false, false, false]) ∧
  (leU32 [0xFF, 0xFF, 0xFF, 0xFF] 0).toNat = 4294967295

/-- R158 to R165: the velocities, headings, accuracies and the position DOP, with the examples at both offsets. -/
def Obligations.VelocityHeadingAndDopFieldsAreExtracted : Prop :=
  (∀ (s : State) (P : List Byte) (c0 c1 : Byte), s.cfg.pvtMinLen ≤ P.length →
    ∃ t, exec (.navPvt P c0 c1) s = .next t ∧ t.record.velN.toInt = signedAt P 48 ∧
      t.record.velE.toInt = signedAt P 52 ∧ t.record.velD.toInt = signedAt P 56 ∧
      t.record.gspeed.toInt = signedAt P 60 ∧ t.record.headMot.toInt = signedAt P 64 ∧
      t.record.sacc.toNat = unsignedAt P 68 4 ∧ t.record.headAcc.toNat = unsignedAt P 72 4 ∧
      t.record.pdop.toNat = unsignedAt P s.cfg.pdopOffset 2 ∧
      (s.cfg.pdopOffset = 72 → t.record.pdop.toNat = t.record.headAcc.toNat % 2 ^ 16)) ∧
  (let r := extractRecord Config.default samplePayload
   r.velN.toInt = -250 ∧ r.velE.toInt = 1000 ∧ r.velD.toInt = 5 ∧ r.gspeed.toInt = 1031 ∧ r.headMot.toInt = 7595960 ∧
     r.sacc = 300 ∧ r.headAcc = 150000 ∧ r.pdop = 18928) ∧
  (extractRecord { Config.default with pdopOffset := 76 } samplePayload).pdop = 125

/-- R166: the commit. The whole record is written at once, `fresh` is set even when the record is the same, and nothing of
the old record is kept. -/
def Obligations.DecodeCommitsTheWholeRecord : Prop :=
  ∀ (s : State) (P : List Byte) (c0 c1 : Byte), s.cfg.pvtMinLen ≤ P.length →
    exec (.navPvt P c0 c1) s =
      .next { s with record := extractRecord s.cfg P, fresh := true, response := Response.ofStatus .ok } ∧
    ∀ old : Record, exec (.navPvt P c0 c1) { s with record := old } = exec (.navPvt P c0 c1) s

/-- R168: when DECODE answers any status but OK, it has written neither `rec` nor `fresh`; and it never writes `buf` or
`fill` (R130). -/
def Obligations.NoPartialRecord : Prop :=
  ∀ (i : Instr) (s t : State), i.isCommand = false → exec i s = .next t →
    (t.response ≠ Response.ofStatus .ok → t.record = s.record ∧ t.fresh = s.fresh) ∧
      t.buf = s.buf ∧ t.fill = s.fill ∧ t.cfg = s.cfg ∧ t.host = s.host

/-- R169: an all-zero payload decodes to ZERO_RECORD with `fresh` set; once a peek has cleared it, record and flag are those
of reset. -/
def Obligations.AllZeroPayloadLooksLikeReset : Prop :=
  ∀ (s : State) (n : Nat) (c0 c1 : Byte), s.cfg.pvtMinLen ≤ n →
    ∃ t u, exec (.navPvt (List.replicate n 0) c0 c1) s = .next t ∧ t.record = Record.zero ∧ t.fresh = true ∧
      exec .peekAlways t = .next u ∧ u.record = (State.resetWith s.cfg).record ∧
      u.fresh = (State.resetWith s.cfg).fresh

/-- R44: at PDOP_OFFSET = 72 the position DOP is the low half of the heading accuracy, in every decoded record. -/
def Obligations.PdopIsTheLowHalfOfHeadAcc : Prop :=
  (∀ (cfg : Config) (P : List Byte), cfg.pdopOffset = 72 →
    (extractRecord cfg P).pdop.toNat = (extractRecord cfg P).headAcc.toNat % 2 ^ 16) ∧
  (leU32 [0xF0, 0x49, 0x02, 0x00] 0 = 150000 ∧ leU16 [0xF0, 0x49, 0x02, 0x00] 0 = 18928)

/-- R68: the trailer counts in T and is removed, and is never read: any two trailers give the same outcome, up to stale
bytes. -/
def Obligations.TrailerIsNeverRead : Prop :=
  ∀ (s : State) (cls id c0 c1 : Byte) (P : List Byte), s.Inv → s.fill = 0 → P.length < 65536 →
    P.length + 8 ≤ s.cfg.bufCap →
      outcomesAgree (exec (.ingest (frameBytes s.cfg cls id P c0 c1)) s)
          (exec (.ingest (frameBytes s.cfg cls id P 0 0)) s) ∧
        ∃ t, exec (.ingest (frameBytes s.cfg cls id P c0 c1)) s = .next t ∧ t.fill = 0

/-- R73: PVT_MIN_LEN is max(76, PDOP_OFFSET + 2), a shorter payload is SHORT_PAYLOAD, and a longer one decodes as its first
PVT_MIN_LEN bytes. -/
def Obligations.PayloadBeyondTheMinimumIsIgnored : Prop :=
  ∀ (s : State) (P : List Byte) (c0 c1 : Byte),
    s.cfg.pvtMinLen = max 76 (s.cfg.pdopOffset + 2) ∧ Config.default.pvtMinLen = 76 ∧
    ({ Config.default with pdopOffset := 76 } : Config).pvtMinLen = 78 ∧
    (s.cfg.pvtMinLen ≤ P.length →
      ∃ t, exec (.navPvt P c0 c1) s = .next t ∧ exec (.navPvt (P.take s.cfg.pvtMinLen) c0 c1) s = .next t ∧
        t.response = Response.ofStatus .ok) ∧
    (P.length < s.cfg.pvtMinLen →
      ∃ t, exec (.navPvt P c0 c1) s = .next t ∧ t.response = Response.ofStatus .shortPayload)

/-- R167: the scaled view is the exact rational raw / D, with D and the unit from the table. -/
def Obligations.ScaledViewIsExact : Prop :=
  (∀ (r : Record) (f : ScaledField), r.scaled f * (f.divisor : Rat) = (r.raw f : Rat)) ∧
  ([ScaledField.lon, .lat].map (fun f => (f.divisor, f.unit)) = List.replicate 2 (10 ^ 7, .degrees)) ∧
  ([ScaledField.height, .hmsl, .hacc, .vacc].map (fun f => (f.divisor, f.unit)) = List.replicate 4 (10 ^ 3, .metres)) ∧
  ([ScaledField.velN, .velE, .velD, .gspeed, .sacc].map (fun f => (f.divisor, f.unit)) =
    List.replicate 5 (10 ^ 3, .metresPerSecond)) ∧
  ([ScaledField.headMot, .headAcc].map (fun f => (f.divisor, f.unit)) = List.replicate 2 (10 ^ 5, .degrees)) ∧
  (ScaledField.pdop.divisor, ScaledField.pdop.unit) = (10 ^ 2, .dimensionless) ∧
  ∀ r : Record, r.lon = 123456789 → r.scaled .lon = 123456789 / 10 ^ 7

/-! ## The accessors and RESET -/

/-- R170: PEEK_ALWAYS answers the record and clears `fresh`, and leaves the rest; a second one answers the same record. -/
def Obligations.PeekAlwaysReadsAndConsumes : Prop :=
  ∀ s : State,
    exec .peekAlways s = .next { s with fresh := false, response := Response.ofRecord s.record } ∧
    (∀ t, exec .peekAlways s = .next t → exec .peekAlways t = .next t) ∧
    ∀ chunk, decodeCommand 0b011 chunk = .ok .peekAlways

/-- R171: PEEK_IF_NEW answers the record and clears `fresh` when it was 1, and answers has_new = 0 without a record
otherwise; it leaves the rest. So it fires once. -/
def Obligations.PeekIfNewFiresOnce : Prop :=
  ∀ s : State,
    (s.fresh = true → exec .peekIfNew s = .next { s with fresh := false, response := Response.ofNew s.record }) ∧
    (s.fresh = false → exec .peekIfNew s = .next { s with response := Response.ofNothingNew }) ∧
    (∀ t, exec .peekIfNew s = .next t ∨ exec .peekAlways s = .next t →
      ∃ u, exec .peekIfNew t = .next u ∧ u.response = Response.ofNothingNew ∧ u.record = s.record) ∧
    ∀ chunk, decodeCommand 0b100 chunk = .ok .peekIfNew

/-- R173: after any error status an unread record is still there for PEEK_IF_NEW. -/
def Obligations.ErrorsKeepAnUnreadRecord : Prop :=
  ∀ (i : Instr) (s t : State) (st : Status), exec i s = .next t → t.response = Response.ofStatus st → st ≠ .ok →
    t.fresh = s.fresh ∧ (s.fresh = true → ∃ u, exec .peekIfNew t = .next u ∧ u.response = Response.ofNew s.record)

/-- R200, R29: RESET and power-on leave fill 0, every field of the record 0, `fresh` 0 and no status; RESET keeps the
instance's parameters and the host's stream. -/
def Obligations.ResetLeavesTheInitialState : Prop :=
  let initial := fun t : State => t.fill = 0 ∧ t.fresh = false ∧ t.record = Record.zero ∧ t.contents = []
  (∀ s : State, ∃ t, exec .reset s = .next t ∧ initial t ∧ t.response = Response.absent ∧ t.cfg = s.cfg ∧
    t.host = s.host ∧ ∃ u, exec .peekIfNew t = .next u ∧ u.response = Response.ofNothingNew) ∧
  (∀ cfg : Config, initial (State.resetWith cfg)) ∧
  (∀ f : ScaledField, Record.zero.raw f = 0) ∧
  (let z := Record.zero
   z.itow = 0 ∧ z.year = 0 ∧ z.month = 0 ∧ z.day = 0 ∧ z.hour = 0 ∧ z.min = 0 ∧ z.sec = 0 ∧ z.validRaw = 0 ∧
     z.tacc = 0 ∧ z.nano = 0 ∧ z.fixType.code = 0 ∧ z.flagsRaw = 0 ∧ z.flags2Raw = 0 ∧ z.fixValid = false ∧
     z.dateValid = false ∧ z.timeValid = false ∧ z.numSv = 0) ∧
  ∀ chunk, decodeCommand 0b101 chunk = .ok .reset

/-- The frame of the instructions that store nothing to the buffer: XFAIL, the accessors, RESET and the three frame rows.
Every byte of memory reads as before (for RESET that is the model's choice, assumption log 6), `fill` changes only by
RESET, and the record only by RESET and NAV_PVT. -/
def Obligations.NonStoringInstructionsFrame : Prop :=
  ∀ (i : Instr) (s t : State), (∀ c, i ≠ .ingest c) → exec i s = .next t →
    s.sameMemory t ∧ t.cfg = s.cfg ∧ t.host = s.host ∧ (i ≠ .reset → t.fill = s.fill) ∧
      (i ≠ .reset → (∀ P c0 c1, i ≠ .navPvt P c0 c1) → t.record = s.record) ∧
      (i = .xfail ∨ (∃ id P c0 c1, i = .unrecognizedMessage id P c0 c1) ∨
        (∃ cls id P c0 c1, i = .unrecognizedClass cls id P c0 c1) → t.fresh = s.fresh)

/-! ## The whole machine -/

/-- R181, R184: no error is fatal. Every instruction of every state answers a next state. -/
def Obligations.EveryInstructionCompletes : Prop :=
  ∀ (i : Instr) (s : State), ∃ t, exec i s = .next t

/-- A host within its contract is never refused, however many steps are taken. -/
def Obligations.RunsWithinTheContractNeverStop : Prop :=
  ∀ (n : Nat) (s : State), s.hostInContract → ∃ t, Host.Core.run Sys2Proof.core n s = .next t

/-- From every state that meets the invariant a step gives a state that meets it: the buffer stays canonical and inside
`0 .. BUF_CAP-1`, and `fill` stays at most BUF_CAP. -/
def Obligations.StepKeepsTheInvariant : Prop :=
  ∀ s t : State, s.Inv → step s = .next t → t.Inv

/-- The invariant holds after power-on, for every choice of parameters. -/
def Obligations.InvariantHoldsAtReset : Prop :=
  ∀ cfg : Config, (State.resetWith cfg).Inv ∧ State.reset.Inv

/-- R5: no step writes the parameters; and a step takes at most one transaction. -/
def Obligations.StepKeepsParametersAndTakesOneTransaction : Prop :=
  ∀ s t : State, step s = .next t → t.cfg = s.cfg ∧ t.host = s.host.tail

/-- R24, R26, R30 I2: `rec` is written by a successful decode and by RESET alone; `fresh` is raised by a successful decode
alone, and lowered by the accessors and RESET alone. -/
def Obligations.OnlyDecodeAndResetWriteTheCell : Prop :=
  ∀ s t : State, step s = .next t →
    (t.record ≠ s.record →
      (∃ c rest, s.host = .command ⟨0b001, c⟩ :: rest ∧ t.response = Response.ofStatus .ok ∧ t.fresh = true) ∨
        (∃ r rest, s.host = .command r :: rest ∧ r.cmd = 0b101 ∧ t.record = Record.zero)) ∧
    (s.fresh = false → t.fresh = true →
      ∃ c rest, s.host = .command ⟨0b001, c⟩ :: rest ∧ t.response = Response.ofStatus .ok) ∧
    (s.fresh = true → t.fresh = false →
      ∃ r rest, s.host = .command r :: rest ∧ (r.cmd = 0b011 ∨ r.cmd = 0b100 ∨ r.cmd = 0b101))

/-- R21, R22: only INGEST writes the buffer, and only INGEST and RESET write `fill`. -/
def Obligations.OnlyIngestWritesTheBuffer : Prop :=
  ∀ s t : State, step s = .next t →
    (t.buf ≠ s.buf → ∃ c rest, s.host = .command ⟨0b001, c⟩ :: rest) ∧
    (t.fill ≠ s.fill → ∃ r rest, s.host = .command r :: rest ∧ (r.cmd = 0b001 ∨ r.cmd = 0b101))

/-- R23: stale bytes are unobservable. Two states that differ at most in `buf[fill..BUF_CAP)` step to the same kind of
outcome, and the next states differ at most there again: no response, and no later one, depends on a stale byte. -/
def Obligations.StaleBytesAreUnobservable : Prop :=
  ∀ s s' : State, s.Inv → s'.Inv → s.sameButStale s' → outcomesAgree (step s) (step s')

/-- R5: a recognized message can complete only if BUF_CAP >= PVT_MIN_LEN + 8, and no frame at all with BUF_CAP < 8. -/
def Obligations.DecodingNeedsCapacity : Prop :=
  ∀ (c : List Byte) (s t : State), s.Inv → exec (.ingest c) s = .next t →
    (t.fresh = true → s.fresh = false → s.cfg.pvtMinLen + 8 ≤ s.cfg.bufCap) ∧
      (s.cfg.bufCap < 8 → t.response = Response.ofStatus .ok ∨ t.response = Response.ofStatus .bufOverflow)
end

