-- ==== Sys2Proof/Laws/Memory.lean ====
section
/-! SUPPORT. Sys2Proof/Laws/Memory.lean: what each operation on the buffer's memory does to a read, and that it keeps the
canonical form and the bounds of the address space. -/

namespace Sys2Proof.Machine.Memory

/-! ### Reading after a write -/

theorem read_of_wfFrom_lt : ∀ (m : Memory) {lo i : Nat}, wfFrom lo m = true → i < lo → read m i = unlistedByte
  | [], _, _, _, _ => rfl
  | (k, v) :: m, lo, i, h, hi => by
    simp only [wfFrom, Bool.and_eq_true, decide_eq_true_eq] at h
    have hk : i ≠ k := by omega
    simp only [read, if_neg hk]
    exact read_of_wfFrom_lt m h.2 (by omega)

theorem wfFrom_mono : ∀ (m : Memory) {lo lo' : Nat}, lo' ≤ lo → wfFrom lo m = true → wfFrom lo' m = true
  | [], _, _, _, _ => rfl
  | (k, v) :: m, lo, lo', h, hw => by
    simp only [wfFrom, Bool.and_eq_true, decide_eq_true_eq] at hw ⊢
    exact ⟨⟨by omega, hw.1.2⟩, hw.2⟩

theorem read_write_other : ∀ (m : Memory) {i j : Nat} (b : Byte), j ≠ i → read (write m i b) j = read m j
  | [], i, j, b, h => by
    by_cases hb : b = unlistedByte <;> simp [write, read, hb, h]
  | (k, v) :: m, i, j, b, h => by
    have ih := read_write_other m b h
    unfold write
    split
    · split
      · rfl
      · simp [read, h]
    · split
      · next hik =>
        subst hik
        split <;> simp [read, h]
      · by_cases hj : j = k <;> simp [read, hj, ih]

/-- Reading back needs the canonical form: a list with a repeated index would still hold an older entry. -/
theorem read_write_same : ∀ (m : Memory) {lo i : Nat} (b : Byte), wfFrom lo m = true → read (write m i b) i = b
  | [], _, i, b, _ => by
    by_cases hb : b = unlistedByte <;> simp [write, read, hb]
  | (k, v) :: m, lo, i, b, h => by
    have hm : wfFrom (k + 1) m = true := by
      simp only [wfFrom, Bool.and_eq_true] at h
      exact h.2
    have ih := read_write_same m (i := i) b hm
    unfold write
    split
    · next hik =>
      split
      · next hb =>
        have : i ≠ k := by omega
        simp only [read, if_neg this]
        rw [hb]
        exact read_of_wfFrom_lt m hm (by omega)
      · simp [read]
    · split
      · next hik =>
        subst hik
        split
        · next hb => rw [hb]; exact read_of_wfFrom_lt m hm (by omega)
        · simp [read]
      · next hik => simp [read, hik, ih]

theorem wfFrom_write : ∀ (m : Memory) {lo i : Nat} (b : Byte), lo ≤ i → wfFrom lo m = true →
    wfFrom lo (write m i b) = true
  | [], lo, i, b, hi, _ => by
    by_cases hb : b = unlistedByte <;> simp [write, wfFrom, hb, hi]
  | (k, v) :: m, lo, i, b, hi, h => by
    simp only [wfFrom, Bool.and_eq_true, decide_eq_true_eq] at h
    obtain ⟨⟨hk, hv⟩, hm⟩ := h
    unfold write
    split
    · next hik =>
      split
      · simp [wfFrom, hk, hm]
        simpa using hv
      · next hb =>
        simp only [wfFrom, Bool.and_eq_true, decide_eq_true_eq]
        exact ⟨⟨hi, by simpa using hb⟩, ⟨by omega, hv⟩, hm⟩
    · split
      · next hik =>
        subst hik
        split
        · exact wfFrom_mono m (by omega) hm
        · next hb =>
          simp only [wfFrom, Bool.and_eq_true, decide_eq_true_eq]
          exact ⟨⟨hk, by simpa using hb⟩, hm⟩
      · simp only [wfFrom, Bool.and_eq_true, decide_eq_true_eq]
        exact ⟨⟨hk, hv⟩, wfFrom_write m b (by omega) hm⟩

theorem wf_write (m : Memory) (i : Nat) (b : Byte) (h : wf m = true) : wf (write m i b) = true :=
  wfFrom_write m b (Nat.zero_le i) h

theorem below_write : ∀ (m : Memory) {n i : Nat} (b : Byte), i < n → below n m = true → below n (write m i b) = true
  | [], n, i, b, hi, _ => by
    by_cases hb : b = unlistedByte <;> simp [write, below, hb, hi]
  | (k, v) :: m, n, i, b, hi, h => by
    simp only [below, List.all_cons, Bool.and_eq_true, decide_eq_true_eq] at h
    have ih := below_write m b hi h.2
    unfold write
    split
    · split
      · simpa [below] using h
      · simpa [below, hi] using h
    · split
      · split
        · exact h.2
        · simpa [below, hi] using h.2
      · simp only [below, List.all_cons, Bool.and_eq_true, decide_eq_true_eq]
        exact ⟨h.1, ih⟩

/-! ### Writing a sequence -/

theorem wf_writeBytes : ∀ (bs : List Byte) (m : Memory) (i : Nat), wf m = true → wf (writeBytes m i bs) = true
  | [], _, _, h => h
  | b :: bs, m, i, h => wf_writeBytes bs _ _ (wf_write m i b h)

theorem below_writeBytes : ∀ (bs : List Byte) (m : Memory) {n i : Nat}, i + bs.length ≤ n → below n m = true →
    below n (writeBytes m i bs) = true
  | [], _, _, _, _, h => h
  | b :: bs, m, n, i, hn, h => by
    simp only [List.length_cons] at hn
    exact below_writeBytes bs _ (by omega) (below_write m b (by omega) h)

theorem read_writeBytes_outside : ∀ (bs : List Byte) (m : Memory) {i j : Nat}, (j < i ∨ i + bs.length ≤ j) →
    read (writeBytes m i bs) j = read m j
  | [], _, _, _, _ => rfl
  | b :: bs, m, i, j, h => by
    simp only [List.length_cons] at h
    rw [writeBytes, read_writeBytes_outside bs _ (by omega), read_write_other m b (by omega)]

theorem read_writeBytes_inside : ∀ (bs : List Byte) (m : Memory) {i : Nat} (j : Nat), wf m = true → j < bs.length →
    read (writeBytes m i bs) (i + j) = bs.getD j 0
  | [], _, _, _, _, h => absurd h (by simp)
  | b :: bs, m, i, 0, hw, _ => by
    show read (writeBytes (write m i b) (i + 1) bs) i = b
    rw [read_writeBytes_outside bs _ (by omega), read_write_same m b hw]
  | b :: bs, m, i, j + 1, hw, h => by
    have := read_writeBytes_inside bs (write m i b) (i := i + 1) j (wf_write m i b hw) (by simpa using h)
    rw [writeBytes, show i + (j + 1) = i + 1 + j by omega, this]
    rfl

/-! ### The copy of RemoveFront -/

theorem wf_moveDown (k : Nat) : ∀ (n i : Nat) (m : Memory), wf m = true → wf (moveDown m k i n) = true
  | 0, _, _, h => h
  | n + 1, i, m, h => wf_moveDown k n (i + 1) _ (wf_write m i _ h)

theorem below_moveDown (k : Nat) : ∀ (n i : Nat) (m : Memory) {top : Nat}, i + n ≤ top → below top m = true →
    below top (moveDown m k i n) = true
  | 0, _, _, _, _, h => h
  | n + 1, i, m, top, hn, h => below_moveDown k n (i + 1) _ (by omega) (below_write m _ (by omega) h)

/-- The copied range holds the OLD bytes `k` higher, everything else is as it was. -/
theorem read_moveDown (k : Nat) : ∀ (n i : Nat) (m : Memory) (j : Nat), wf m = true →
    read (moveDown m k i n) j = if i ≤ j ∧ j < i + n then read m (k + j) else read m j
  | 0, i, m, j, _ => by
    rw [if_neg (by omega)]
    rfl
  | n + 1, i, m, j, h => by
    rw [moveDown, read_moveDown k n (i + 1) _ j (wf_write m i _ h)]
    by_cases hj : i + 1 ≤ j ∧ j < i + 1 + n
    · rw [if_pos hj, if_pos (by omega), read_write_other m _ (by omega)]
    · rw [if_neg hj]
      by_cases hi : j = i
      · subst hi
        rw [if_pos (by omega), read_write_same m _ h]
      · rw [if_neg (by omega), read_write_other m _ hi]

/-! ### Slices and the scan -/

@[simp] theorem length_slice (m : Memory) : ∀ (n a : Nat), (slice m a n).length = n
  | 0, _ => rfl
  | n + 1, a => by simp [slice, length_slice m n]

theorem slice_getElem (m : Memory) : ∀ (n a j : Nat) (h : j < (slice m a n).length), (slice m a n)[j] = read m (a + j)
  | 0, _, _, h => absurd h (by simp)
  | n + 1, a, 0, _ => rfl
  | n + 1, a, j + 1, h => by
    have := slice_getElem m n (a + 1) j (by simpa using h)
    simp only [slice, List.getElem_cons_succ, this]
    congr 1
    omega

theorem slice_congr (m m' : Memory) (n a : Nat) (h : ∀ j, j < n → read m (a + j) = read m' (a + j)) :
    slice m a n = slice m' a n := by
  apply List.ext_getElem
  · simp
  · intro j h1 h2
    rw [slice_getElem, slice_getElem]
    exact h j (by simpa using h1)

theorem slice_add (m : Memory) : ∀ (n k a : Nat), slice m a (n + k) = slice m a n ++ slice m (a + n) k
  | 0, k, a => by simp [slice]
  | n + 1, k, a => by
    rw [show n + 1 + k = n + k + 1 by omega, slice, slice_add m n k, slice]
    simp [show a + 1 + n = a + (n + 1) by omega]

/-- `Memory.find` is the first index in range that holds the byte. -/
theorem find_some (m : Memory) (b : Byte) : ∀ (n p q : Nat), find m b p n = some q →
    p ≤ q ∧ q < p + n ∧ read m q = b ∧ ∀ r, p ≤ r → r < q → read m r ≠ b
  | 0, _, _, h => by simp [find] at h
  | n + 1, p, q, h => by
    unfold find at h
    split at h
    · next hp =>
      obtain rfl : p = q := by simpa using h
      exact ⟨Nat.le_refl _, by omega, hp, fun r h1 h2 => by omega⟩
    · next hp =>
      obtain ⟨h1, h2, h3, h4⟩ := find_some m b n (p + 1) q h
      refine ⟨by omega, by omega, h3, fun r hr hq => ?_⟩
      rcases Nat.eq_or_lt_of_le hr with rfl | hlt
      · exact hp
      · exact h4 r hlt hq

theorem find_none (m : Memory) (b : Byte) : ∀ (n p : Nat), find m b p n = none →
    ∀ r, p ≤ r → r < p + n → read m r ≠ b
  | 0, _, _, r, h1, h2 => by omega
  | n + 1, p, h, r, h1, h2 => by
    unfold find at h
    split at h
    · simp at h
    · next hp =>
      rcases Nat.eq_or_lt_of_le h1 with rfl | hlt
      · exact hp
      · exact find_none m b n (p + 1) h r hlt (by omega)

end Sys2Proof.Machine.Memory
end

