-- ==== Sys2Proof/Laws/State.lean ====
section
/-! SUPPORT. Sys2Proof/Laws/State.lean: one lemma per field per update, so that no proof unfolds a record update. -/

namespace Sys2Proof.Machine.State

variable (s : State)

@[simp] theorem append_cfg (c : List Byte) : (s.append c).cfg = s.cfg := rfl
@[simp] theorem append_buf (c : List Byte) : (s.append c).buf = Memory.writeBytes s.buf s.fill c := rfl
@[simp] theorem append_fill (c : List Byte) : (s.append c).fill = s.fill + c.length := rfl
@[simp] theorem append_record (c : List Byte) : (s.append c).record = s.record := rfl
@[simp] theorem append_fresh (c : List Byte) : (s.append c).fresh = s.fresh := rfl
@[simp] theorem append_host (c : List Byte) : (s.append c).host = s.host := rfl
@[simp] theorem append_response (c : List Byte) : (s.append c).response = s.response := rfl

@[simp] theorem removeFront_cfg (k : Nat) : (s.removeFront k).cfg = s.cfg := rfl
@[simp] theorem removeFront_buf (k : Nat) : (s.removeFront k).buf = Memory.moveDown s.buf k 0 (s.fill - k) := rfl
@[simp] theorem removeFront_fill (k : Nat) : (s.removeFront k).fill = s.fill - k := rfl
@[simp] theorem removeFront_record (k : Nat) : (s.removeFront k).record = s.record := rfl
@[simp] theorem removeFront_fresh (k : Nat) : (s.removeFront k).fresh = s.fresh := rfl
@[simp] theorem removeFront_host (k : Nat) : (s.removeFront k).host = s.host := rfl
@[simp] theorem removeFront_response (k : Nat) : (s.removeFront k).response = s.response := rfl

@[simp] theorem discardAll_cfg : (s.discardAll).cfg = s.cfg := rfl
@[simp] theorem discardAll_buf : (s.discardAll).buf = s.buf := rfl
@[simp] theorem discardAll_fill : (s.discardAll).fill = 0 := rfl
@[simp] theorem discardAll_record : (s.discardAll).record = s.record := rfl
@[simp] theorem discardAll_fresh : (s.discardAll).fresh = s.fresh := rfl
@[simp] theorem discardAll_host : (s.discardAll).host = s.host := rfl
@[simp] theorem discardAll_response : (s.discardAll).response = s.response := rfl

@[simp] theorem respond_cfg (r : Response) : (s.respond r).cfg = s.cfg := rfl
@[simp] theorem respond_buf (r : Response) : (s.respond r).buf = s.buf := rfl
@[simp] theorem respond_fill (r : Response) : (s.respond r).fill = s.fill := rfl
@[simp] theorem respond_record (r : Response) : (s.respond r).record = s.record := rfl
@[simp] theorem respond_fresh (r : Response) : (s.respond r).fresh = s.fresh := rfl
@[simp] theorem respond_host (r : Response) : (s.respond r).host = s.host := rfl
@[simp] theorem respond_response (r : Response) : (s.respond r).response = r := rfl

@[simp] theorem returnStatus_cfg (st : Status) : (s.returnStatus st).cfg = s.cfg := rfl
@[simp] theorem returnStatus_buf (st : Status) : (s.returnStatus st).buf = s.buf := rfl
@[simp] theorem returnStatus_fill (st : Status) : (s.returnStatus st).fill = s.fill := rfl
@[simp] theorem returnStatus_record (st : Status) : (s.returnStatus st).record = s.record := rfl
@[simp] theorem returnStatus_fresh (st : Status) : (s.returnStatus st).fresh = s.fresh := rfl
@[simp] theorem returnStatus_host (st : Status) : (s.returnStatus st).host = s.host := rfl
@[simp] theorem returnStatus_response (st : Status) : (s.returnStatus st).response = Response.ofStatus st := rfl

@[simp] theorem raise_cfg (st : Status) : (s.raise st).cfg = s.cfg := rfl
@[simp] theorem raise_buf (st : Status) : (s.raise st).buf = s.buf := rfl
@[simp] theorem raise_fill (st : Status) : (s.raise st).fill = s.fill := rfl
@[simp] theorem raise_record (st : Status) : (s.raise st).record = s.record := rfl
@[simp] theorem raise_fresh (st : Status) : (s.raise st).fresh = s.fresh := rfl
@[simp] theorem raise_host (st : Status) : (s.raise st).host = s.host := rfl
@[simp] theorem raise_response (st : Status) : (s.raise st).response = Response.ofStatus st := rfl

@[simp] theorem markFresh_cfg : (s.markFresh).cfg = s.cfg := rfl
@[simp] theorem markFresh_buf : (s.markFresh).buf = s.buf := rfl
@[simp] theorem markFresh_fill : (s.markFresh).fill = s.fill := rfl
@[simp] theorem markFresh_record : (s.markFresh).record = s.record := rfl
@[simp] theorem markFresh_fresh : (s.markFresh).fresh = true := rfl
@[simp] theorem markFresh_host : (s.markFresh).host = s.host := rfl
@[simp] theorem markFresh_response : (s.markFresh).response = s.response := rfl

@[simp] theorem markConsumed_cfg : (s.markConsumed).cfg = s.cfg := rfl
@[simp] theorem markConsumed_buf : (s.markConsumed).buf = s.buf := rfl
@[simp] theorem markConsumed_fill : (s.markConsumed).fill = s.fill := rfl
@[simp] theorem markConsumed_record : (s.markConsumed).record = s.record := rfl
@[simp] theorem markConsumed_fresh : (s.markConsumed).fresh = false := rfl
@[simp] theorem markConsumed_host : (s.markConsumed).host = s.host := rfl
@[simp] theorem markConsumed_response : (s.markConsumed).response = s.response := rfl

@[simp] theorem commit_cfg (r : Record) : (s.commit r).cfg = s.cfg := rfl
@[simp] theorem commit_buf (r : Record) : (s.commit r).buf = s.buf := rfl
@[simp] theorem commit_fill (r : Record) : (s.commit r).fill = s.fill := rfl
@[simp] theorem commit_record (r : Record) : (s.commit r).record = r := rfl
@[simp] theorem commit_fresh (r : Record) : (s.commit r).fresh = true := rfl
@[simp] theorem commit_host (r : Record) : (s.commit r).host = s.host := rfl
@[simp] theorem commit_response (r : Record) : (s.commit r).response = s.response := rfl

@[simp] theorem resetWith_cfg (cfg : Config) : (State.resetWith cfg).cfg = cfg := rfl
@[simp] theorem resetWith_buf (cfg : Config) : (State.resetWith cfg).buf = [] := rfl
@[simp] theorem resetWith_fill (cfg : Config) : (State.resetWith cfg).fill = 0 := rfl
@[simp] theorem resetWith_record (cfg : Config) : (State.resetWith cfg).record = Record.zero := rfl
@[simp] theorem resetWith_fresh (cfg : Config) : (State.resetWith cfg).fresh = false := rfl
@[simp] theorem resetWith_host (cfg : Config) : (State.resetWith cfg).host = [] := rfl
@[simp] theorem resetWith_response (cfg : Config) : (State.resetWith cfg).response = Response.absent := rfl

end Sys2Proof.Machine.State
end

