-- ==== Sys2Proof/Laws/Buffer.lean ====
section
/-! SUPPORT. Sys2Proof/Laws/Buffer.lean: the buffer primitives of 20_memory.md R46 over the valid bytes
`buf[0..fill)`: Append is list append, RemoveFront is drop, and one resync is `resyncList`. -/

namespace Sys2Proof.Machine.State

/-! ### The valid bytes -/

@[simp] theorem length_bytes (s : State) (a b : Nat) : (s.bytes a b).length = b - a := by simp [bytes]

@[simp] theorem length_contents (s : State) : s.contents.length = s.fill := by simp [contents]

theorem contents_getElem (s : State) (j : Nat) (h : j < s.contents.length) :
    s.contents[j] = Memory.read s.buf j := by
  simp [contents, bytes, Memory.slice_getElem]

theorem contents_getD (s : State) (j : Nat) (h : j < s.fill) : s.contents.getD j 0 = Memory.read s.buf j := by
  rw [List.getD_eq_getElem _ _ (by simpa using h), contents_getElem]

/-- A slice within the valid bytes is a piece of the list. -/
theorem bytes_eq_contents (s : State) (a b : Nat) (hb : b ≤ s.fill) :
    s.bytes a b = (s.contents.drop a).take (b - a) := by
  apply List.ext_getElem
  · simp; omega
  · intro j h1 h2
    have hj : j < b - a := by simpa using h1
    simp only [bytes, Memory.slice_getElem, List.getElem_take, List.getElem_drop]
    rw [contents_getElem]

theorem contents_congr (s t : State) (hf : s.fill = t.fill)
    (h : ∀ i, i < s.fill → Memory.read s.buf i = Memory.read t.buf i) : s.contents = t.contents := by
  simp only [contents, bytes, ← hf]
  exact Memory.slice_congr _ _ _ _ (fun j hj => by simpa using h j (by simpa using hj))

/-! ### Append, RemoveFront, FindFrom -/

theorem contents_append (s : State) (c : List Byte) (hw : Memory.wf s.buf = true) :
    (s.append c).contents = s.contents ++ c := by
  apply List.ext_getElem
  · simp
  · intro j h1 h2
    rw [contents_getElem, append_buf, List.getElem_append]
    split
    · next hj =>
      rw [Memory.read_writeBytes_outside _ _ (by left; simpa using hj), contents_getElem]
    · next hj =>
      have hj : s.fill ≤ j := by simpa using hj
      have hlt : j - s.fill < c.length := by
        have : j < s.fill + c.length := by simpa using h1
        omega
      have := Memory.read_writeBytes_inside c s.buf (i := s.fill) (j - s.fill) hw hlt
      rw [show s.fill + (j - s.fill) = j by omega] at this
      rw [this, List.getD_eq_getElem _ _ hlt]
      simp

theorem contents_removeFront (s : State) (k : Nat) (hw : Memory.wf s.buf = true) :
    (s.removeFront k).contents = s.contents.drop k := by
  apply List.ext_getElem
  · simp
  · intro j h1 h2
    have hj : j < s.fill - k := by simpa using h1
    rw [contents_getElem, removeFront_buf, Memory.read_moveDown _ _ _ _ _ hw, if_pos (by omega),
      List.getElem_drop, contents_getElem]

/-- FindFrom(1, b) looks for the byte in the tail of the valid bytes. -/
theorem findFrom_one_eq_none_iff (s : State) (b : Byte) : s.findFrom 1 b = none ↔ b ∉ s.contents.drop 1 := by
  constructor
  · intro h hb
    obtain ⟨j, hj, hjb⟩ := List.getElem_of_mem hb
    rw [List.getElem_drop, contents_getElem] at hjb
    have hlt : j < s.fill - 1 := by simpa using hj
    exact Memory.find_none _ _ _ _ h (1 + j) (by omega) (by omega) hjb
  · intro h
    match hf : s.findFrom 1 b with
    | none => rfl
    | some p =>
      exfalso
      obtain ⟨h1, h2, h3, -⟩ := Memory.find_some _ _ _ _ _ hf
      apply h
      rw [List.mem_iff_getElem]
      refine ⟨p - 1, by simp; omega, ?_⟩
      rw [List.getElem_drop, contents_getElem]
      rw [show 1 + (p - 1) = p by omega]
      exact h3

/-! ### The frames of the primitives and the invariant -/

theorem wf_append (s : State) (c : List Byte) (h : Memory.wf s.buf = true) : Memory.wf (s.append c).buf = true :=
  Memory.wf_writeBytes _ _ _ h

theorem wf_removeFront (s : State) (k : Nat) (h : Memory.wf s.buf = true) : Memory.wf (s.removeFront k).buf = true :=
  Memory.wf_moveDown _ _ _ _ h

theorem append_inv (s : State) (c : List Byte) (h : s.Inv) (hc : s.fill + c.length ≤ s.cfg.bufCap) :
    (s.append c).Inv :=
  ⟨Memory.wf_writeBytes _ _ _ h.1, Memory.below_writeBytes _ _ hc h.2.1, hc⟩

theorem removeFront_inv (s : State) (k : Nat) (h : s.Inv) : (s.removeFront k).Inv := by
  refine ⟨Memory.wf_moveDown _ _ _ _ h.1, Memory.below_moveDown _ _ _ _ ?_ h.2.1, ?_⟩
  · have := h.2.2
    simp only [removeFront_cfg]
    omega
  · have := h.2.2
    simp only [removeFront_cfg, removeFront_fill]
    omega

/-- RemoveFront writes below the new fill only. -/
theorem read_removeFront_above (s : State) (k i : Nat) (hw : Memory.wf s.buf = true) (hi : s.fill - k ≤ i) :
    Memory.read (s.removeFront k).buf i = Memory.read s.buf i := by
  rw [removeFront_buf, Memory.read_moveDown _ _ _ _ _ hw, if_neg (by omega)]

/-! ### Resync -/

theorem headIsMarker_eq_framedList (s : State) (h : 2 ≤ s.fill) :
    s.headIsMarker = framedList s.cfg s.contents := by
  match hc : s.contents with
  | [] => have := s.length_contents; simp [hc] at this; omega
  | [x] => have := s.length_contents; simp [hc] at this; omega
  | x :: y :: rest =>
    have h0 := s.contents_getD 0 (by omega)
    have h1 := s.contents_getD 1 (by omega)
    simp [hc] at h0 h1
    simp [headIsMarker, framedList, ← h0, ← h1]

/-- What the passes of step 4 leave alone, and that they keep the invariant. -/
theorem resyncPasses_frame (n : Nat) (s : State) :
    (s.resyncPasses n).cfg = s.cfg ∧ (s.resyncPasses n).record = s.record ∧ (s.resyncPasses n).fresh = s.fresh ∧
      (s.resyncPasses n).host = s.host ∧ (s.resyncPasses n).response = s.response := by
  induction n generalizing s with
  | zero => exact ⟨rfl, rfl, rfl, rfl, rfl⟩
  | succ n ih =>
    unfold resyncPasses
    split
    · split
      · exact ⟨rfl, rfl, rfl, rfl, rfl⟩
      · next p _ =>
        obtain ⟨h1, h2, h3, h4, h5⟩ := ih (s.removeFront p)
        exact ⟨h1, h2, h3, h4, h5⟩
    · exact ⟨rfl, rfl, rfl, rfl, rfl⟩

@[simp] theorem resync_cfg (s : State) : s.resync.cfg = s.cfg := (s.resyncPasses_frame s.fill).1
@[simp] theorem resync_record (s : State) : s.resync.record = s.record := (s.resyncPasses_frame s.fill).2.1
@[simp] theorem resync_fresh (s : State) : s.resync.fresh = s.fresh := (s.resyncPasses_frame s.fill).2.2.1
@[simp] theorem resync_host (s : State) : s.resync.host = s.host := (s.resyncPasses_frame s.fill).2.2.2.1
@[simp] theorem resync_response (s : State) : s.resync.response = s.response :=
  (s.resyncPasses_frame s.fill).2.2.2.2

theorem resyncPasses_inv (n : Nat) (s : State) (h : s.Inv) : (s.resyncPasses n).Inv := by
  induction n generalizing s with
  | zero => exact h
  | succ n ih =>
    unfold resyncPasses
    split
    · split
      · exact h
      · exact ih _ (s.removeFront_inv _ h)
    · exact h

theorem resync_inv (s : State) (h : s.Inv) : s.resync.Inv := s.resyncPasses_inv _ h

theorem resyncPasses_fill_le (n : Nat) (s : State) : (s.resyncPasses n).fill ≤ s.fill := by
  induction n generalizing s with
  | zero => exact Nat.le_refl _
  | succ n ih =>
    unfold resyncPasses
    split
    · split
      · exact Nat.le_refl _
      · exact Nat.le_trans (ih _) (by simp)
    · exact Nat.le_refl _

theorem wf_resync (s : State) (h : Memory.wf s.buf = true) : Memory.wf s.resync.buf = true := by
  have key : ∀ (n : Nat) (s : State), Memory.wf s.buf = true → Memory.wf (s.resyncPasses n).buf = true := by
    intro n
    induction n with
    | zero => exact fun _ h => h
    | succ n ih =>
      intro s h
      unfold resyncPasses
      split
      · split
        · exact h
        · exact ih _ (s.wf_removeFront _ h)
      · exact h
  exact key _ s h

theorem resync_fill_le (s : State) : s.resync.fill ≤ s.fill := s.resyncPasses_fill_le _

/-- Resync writes below the old fill only. -/
theorem read_resyncPasses_above (n : Nat) (s : State) (i : Nat) (hw : Memory.wf s.buf = true) (hi : s.fill ≤ i) :
    Memory.read (s.resyncPasses n).buf i = Memory.read s.buf i := by
  induction n generalizing s with
  | zero => rfl
  | succ n ih =>
    unfold resyncPasses
    split
    · split
      · rfl
      · rw [ih _ (by simpa using Memory.wf_moveDown _ _ _ _ hw) (by simp; omega),
          read_removeFront_above _ _ _ hw (by omega)]
    · rfl

end Sys2Proof.Machine.State

namespace Sys2Proof.Machine

/-! ### The list resync -/

/-- Dropping up to the next SYNC1 does not change where the resync ends. -/
theorem resyncList_drop (cfg : Config) : ∀ (p : Nat) (l : List Byte), p < l.length →
    (∀ r, 1 ≤ r → r < p → l.getD r 0 ≠ cfg.sync1) → (p = 0 ∨ (framedList cfg l = false ∧ l.getD p 0 = cfg.sync1)) →
    resyncList cfg l = resyncList cfg (l.drop p)
  | 0, l, _, _, _ => by simp
  | p + 1, [], h, _, _ => absurd h (by simp)
  | p + 1, [x], h, _, _ => by simp at h
  | p + 1, x :: y :: rest, h, hr, hp => by
    obtain ⟨hf, hs⟩ := hp.resolve_left (by omega)
    have hxy : ¬ (x = cfg.sync1 ∧ y = cfg.sync2) := by simpa [framedList] using hf
    have hmem : cfg.sync1 ∈ y :: rest := by
      have hs' : (y :: rest).getD p 0 = cfg.sync1 := hs
      rw [List.getD_eq_getElem _ _ (by simpa using h)] at hs'
      exact hs' ▸ List.getElem_mem _
    rw [resyncList, if_neg hxy, if_pos hmem, List.drop_succ_cons]
    refine resyncList_drop cfg p (y :: rest) (by simpa using h) (fun r h1 h2 => hr (r + 1) (by omega) (by omega)) ?_
    rcases Nat.eq_zero_or_pos p with rfl | hpos
    · exact .inl rfl
    · refine .inr ⟨?_, hs⟩
      have hy : y ≠ cfg.sync1 := by simpa using hr 1 (by omega) (by omega)
      cases rest with
      | nil => rfl
      | cons z zs => simp [framedList, hy]

theorem resyncList_of_stop (cfg : Config) (l : List Byte) (h : framedList cfg l = true ∨ cfg.sync1 ∉ l.drop 1) :
    resyncList cfg l = l := by
  match l with
  | [] => rfl
  | [x] => rfl
  | x :: y :: rest =>
    unfold resyncList
    split
    · rfl
    · next hn =>
      rw [if_neg]
      rcases h with h | h
      · exact absurd (by simpa [framedList] using h) hn
      · simpa using h

/-- Step 4 of INGEST on the indexed buffer is the list resync, once there are passes enough for every byte. -/
theorem State.contents_resyncPasses (n : Nat) (s : State) (hw : Memory.wf s.buf = true) (hn : s.fill ≤ n) :
    (s.resyncPasses n).contents = resyncList s.cfg s.contents := by
  induction n generalizing s with
  | zero =>
    have h0 : s.contents = [] := List.eq_nil_of_length_eq_zero (by rw [s.length_contents]; omega)
    have hs : s.resyncPasses 0 = s := rfl
    rw [hs, h0]
    rfl
  | succ n ih =>
    unfold State.resyncPasses
    split
    · next hc =>
      split
      · next hf =>
        exact (resyncList_of_stop _ _ (.inr ((s.findFrom_one_eq_none_iff _).1 hf))).symm
      · next p hf =>
        obtain ⟨h1, h2, h3, h4⟩ := Memory.find_some _ _ _ _ _ hf
        rw [ih _ (by simpa using Memory.wf_moveDown _ _ _ _ hw) (by simp; omega), State.removeFront_cfg,
          State.contents_removeFront _ _ hw]
        refine (resyncList_drop s.cfg p s.contents (by simp; omega) (fun r hr hp => ?_) (.inr ⟨?_, ?_⟩)).symm
        · rw [s.contents_getD r (by omega)]
          exact h4 r hr hp
        · rw [← s.headIsMarker_eq_framedList hc.1]
          exact hc.2
        · rw [s.contents_getD p (by omega)]
          exact h3
    · next hc =>
      refine (resyncList_of_stop _ _ ?_).symm
      by_cases h2 : 2 ≤ s.fill
      · left
        rw [← s.headIsMarker_eq_framedList h2]
        simpa [h2] using hc
      · right
        have : s.contents.drop 1 = [] := List.drop_eq_nil_of_le (by simp; omega)
        simp [this]

theorem State.contents_resync (s : State) (hw : Memory.wf s.buf = true) :
    s.resync.contents = resyncList s.cfg s.contents := s.contents_resyncPasses _ hw (Nat.le_refl _)

/-- The list resync stops framed, or without a SYNC1 behind its head. -/
theorem resyncList_stops (cfg : Config) : ∀ l : List Byte,
    framedList cfg (resyncList cfg l) = true ∨ cfg.sync1 ∉ (resyncList cfg l).drop 1
  | [] => by simp [resyncList]
  | [x] => by simp [resyncList]
  | x :: y :: rest => by
    unfold resyncList
    split
    · next h => left; simp [framedList, h]
    · split
      · exact resyncList_stops cfg (y :: rest)
      · next h => right; simpa using h

/-- The list resync removes bytes from the front only. -/
theorem resyncList_suffix (cfg : Config) : ∀ l : List Byte, resyncList cfg l <:+ l
  | [] => List.suffix_refl _
  | [x] => List.suffix_refl _
  | x :: y :: rest => by
    unfold resyncList
    split
    · exact List.suffix_refl _
    · split
      · exact (resyncList_suffix cfg (y :: rest)).trans (List.suffix_cons _ _)
      · exact List.suffix_refl _

end Sys2Proof.Machine
end

