-- ==== Sys2Proof/Laws/Decode.lean ====
section
/-! SUPPORT. Sys2Proof/Laws/Decode.lean: what the readers and the frame decoder answer. -/

namespace Sys2Proof.Machine

/-! ### The little-endian readers -/

theorem leU16_toNat (B : List Byte) (o : Nat) :
    (leU16 B o).toNat = (byteAt B o).toNat + 256 * (byteAt B (o + 1)).toNat := by
  have h0 := (byteAt B o).isLt
  have h1 := (byteAt B (o + 1)).isLt
  simp only [leU16, BitVec.toNat_ofNat]
  omega

theorem leU32_toNat (B : List Byte) (o : Nat) :
    (leU32 B o).toNat = (byteAt B o).toNat + 2 ^ 8 * (byteAt B (o + 1)).toNat + 2 ^ 16 * (byteAt B (o + 2)).toNat
      + 2 ^ 24 * (byteAt B (o + 3)).toNat := by
  have h0 := (byteAt B o).isLt
  have h1 := (byteAt B (o + 1)).isLt
  have h2 := (byteAt B (o + 2)).isLt
  have h3 := (byteAt B (o + 3)).isLt
  simp only [leU32, BitVec.toNat_ofNat]
  omega

/-- The length field read back: `[L mod 256, L div 256]` is `L` below 2^16 (R65, R67). -/
theorem leU16_lengthBytes (L : Nat) (h : L < 65536) : (leU16 (lengthBytes L) 0).toNat = L := by
  rw [leU16_toNat]
  simp only [lengthBytes, byteAt, List.getD_cons_zero, List.getD_cons_succ, BitVec.toNat_ofNat]
  omega

end Sys2Proof.Machine

namespace Sys2Proof

open Sys2Proof.Machine

/-! ### Commands -/

/-- A request the decoder accepts is a command, and is the encoding of what it accepts. -/
theorem decodeCommand_isCommand (cmd : BitVec 3) (chunk : List Byte) (i : Instr)
    (h : decodeCommand cmd chunk = .ok i) : i.isCommand = true := by
  unfold decodeCommand at h
  repeat' split at h
  all_goals cases h
  all_goals rfl

/-! ### Frames -/

/-- A list that is framed and holds T bytes decodes, to the row of its class and id. -/
theorem decodeFrame_complete (cfg : Config) (cls id l0 l1 : Byte) (body : List Byte)
    (hL : (leU16 [l0, l1] 0).toNat + 2 ≤ body.length) :
    decodeFrame cfg (cfg.sync1 :: cfg.sync2 :: cls :: id :: l0 :: l1 :: body) =
      .ok (frameInstr cfg cls id (body.take (leU16 [l0, l1] 0).toNat)
          (body.getD (leU16 [l0, l1] 0).toNat 0) (body.getD ((leU16 [l0, l1] 0).toNat + 1) 0),
        body.drop ((leU16 [l0, l1] 0).toNat + 2)) := by
  simp only [decodeFrame, and_self, if_true, decodeBody]
  generalize (leU16 [l0, l1] 0).toNat = L at hL ⊢
  have h0 : L < body.length := by omega
  have h1 : L + 1 < body.length := by omega
  simp only [List.drop_eq_getElem_cons h0, List.drop_eq_getElem_cons h1, List.getD_eq_getElem _ _ h0,
    List.getD_eq_getElem _ _ h1]

/-- The decoder accepts nothing else: what it accepts is framed, and complete. -/
theorem decodeFrame_ok (cfg : Config) (l : List Byte) (i : Instr) (rest : List Byte)
    (h : decodeFrame cfg l = .ok (i, rest)) :
    ∃ cls id l0 l1 P c0 c1, l = cfg.sync1 :: cfg.sync2 :: cls :: id :: l0 :: l1 :: (P ++ c0 :: c1 :: rest) ∧
      P.length = (leU16 [l0, l1] 0).toNat ∧ i = frameInstr cfg cls id P c0 c1 := by
  unfold decodeFrame at h
  split at h
  · next s1 s2 cls id l0 l1 body =>
    split at h
    · next hs =>
      unfold decodeBody at h
      split at h
      · next c0 c1 r hd =>
        obtain ⟨rfl, rfl⟩ : frameInstr cfg cls id (body.take (leU16 [l0, l1] 0).toNat) c0 c1 = i ∧ r = rest := by
          simpa using h
        have hlen : (leU16 [l0, l1] 0).toNat ≤ body.length := by
          by_contra hcon
          rw [List.drop_eq_nil_of_le (by omega)] at hd
          simp at hd
        refine ⟨cls, id, l0, l1, body.take (leU16 [l0, l1] 0).toNat, c0, c1, ?_, by simp [hlen], rfl⟩
        rw [hs.1, hs.2, ← hd, List.take_append_drop]
      · simp at h
    · simp at h
  · split at h <;> simp at h
  · simp at h

/-- A frame of the machine is not a command. -/
theorem frameInstr_isCommand (cfg : Config) (cls id : Byte) (P : List Byte) (c0 c1 : Byte) :
    (frameInstr cfg cls id P c0 c1).isCommand = false := by
  unfold frameInstr
  repeat' split
  all_goals rfl

end Sys2Proof
end

