-- ==== Sys2Proof/Laws/Exec.lean ====
section
/-! SUPPORT. Sys2Proof/Laws/Exec.lean: each meaning's outcomes, said once. -/

namespace Sys2Proof.Machine

open Sys2Proof

/-! ### DECODE -/

/-- DECODE of class, id and payload is the meaning of the frame's row (41_extractor.md R130, R131). -/
theorem execDecode_eq_exec (cls id c0 c1 : Byte) (P : List Byte) (s : State) :
    execDecode cls id P s = exec (frameInstr s.cfg cls id P c0 c1) s := by
  unfold execDecode frameInstr
  by_cases h1 : cls = s.cfg.pvtClass
  · by_cases h2 : id = s.cfg.pvtId <;> simp [h1, h2, exec]
  · simp [h1, exec]

/-- The state a frame row leaves. -/
def afterFrame (i : Instr) (s : State) : State :=
  match i with
  | .navPvt P _ _ =>
    if P.length < s.cfg.pvtMinLen then s.raise .shortPayload
    else (s.commit (extractRecord s.cfg P)).returnStatus .ok
  | .unrecognizedMessage _ _ _ _ => s.raise .unrecognizedMessage
  | .unrecognizedClass _ _ _ _ _ => s.raise .unrecognizedClass
  | .ingest _ | .xfail | .peekAlways | .peekIfNew | .reset => s

/-- A frame row always answers a next state. -/
theorem exec_frame (i : Instr) (s : State) (hi : i.isCommand = false) : exec i s = .next (afterFrame i s) := by
  cases i with
  | navPvt P c0 c1 =>
    simp only [exec, execNavPvt, afterFrame]
    split <;> rfl
  | unrecognizedMessage id P c0 c1 => rfl
  | unrecognizedClass cls id P c0 c1 => rfl
  | ingest _ => cases hi
  | xfail => cases hi
  | peekAlways => cases hi
  | peekIfNew => cases hi
  | reset => cases hi

/-- DECODE never writes `buf` or `fill` (R130), nor the parameters or the host's stream. -/
theorem afterFrame_frame (i : Instr) (s : State) :
    (afterFrame i s).buf = s.buf ∧ (afterFrame i s).fill = s.fill ∧ (afterFrame i s).cfg = s.cfg ∧
      (afterFrame i s).host = s.host := by
  cases i with
  | navPvt P c0 c1 =>
    simp only [afterFrame]
    split <;> exact ⟨rfl, rfl, rfl, rfl⟩
  | _ => exact ⟨rfl, rfl, rfl, rfl⟩

@[simp] theorem afterFrame_buf (i : Instr) (s : State) : (afterFrame i s).buf = s.buf := (afterFrame_frame i s).1
@[simp] theorem afterFrame_fill (i : Instr) (s : State) : (afterFrame i s).fill = s.fill := (afterFrame_frame i s).2.1
@[simp] theorem afterFrame_cfg (i : Instr) (s : State) : (afterFrame i s).cfg = s.cfg := (afterFrame_frame i s).2.2.1
@[simp] theorem afterFrame_host (i : Instr) (s : State) : (afterFrame i s).host = s.host :=
  (afterFrame_frame i s).2.2.2

@[simp] theorem afterFrame_contents (i : Instr) (s : State) : (afterFrame i s).contents = s.contents :=
  State.contents_congr _ _ (by simp) (by simp)

/-! ### INGEST, steps 5 to 7 -/

/-- The frame instruction that stands at the front of the buffer. -/
def headInstr (s : State) : Instr :=
  frameInstr s.cfg (Memory.read s.buf 2) (Memory.read s.buf 3) s.payload
    (Memory.read s.buf (6 + s.payloadLength)) (Memory.read s.buf (7 + s.payloadLength))

theorem handOff_eq (s : State) :
    s.handOff = .next ((afterFrame (headInstr s) s).removeFront s.frameLength) := by
  unfold State.handOff headInstr
  rw [execDecode_eq_exec _ _ (Memory.read s.buf (6 + s.payloadLength)) (Memory.read s.buf (7 + s.payloadLength)),
    exec_frame _ _ (frameInstr_isCommand _ _ _ _ _ _)]
  rfl

/-- Step 5 to 7 either wait, or run one complete frame and remove it. -/
theorem processFrame_cases (s : State) :
    (s.frameComplete = false ∧ s.processFrame = .next (s.returnStatus .ok)) ∨
      (s.frameComplete = true ∧ s.processFrame = .next ((afterFrame (headInstr s) s).removeFront s.frameLength)) := by
  unfold State.processFrame
  by_cases h6 : s.fill < 6
  · left
    refine ⟨?_, by rw [if_pos (.inl h6)]⟩
    simp only [State.frameComplete, Bool.and_eq_false_iff, decide_eq_false_iff_not]
    exact .inl (.inr (by omega))
  · cases hm : s.headIsMarker with
    | false =>
      left
      refine ⟨?_, by rw [if_pos (.inr rfl)]⟩
      simp [State.frameComplete, State.framed, hm]
    | true =>
      rw [if_neg (by simp; omega)]
      by_cases hT : s.fill < s.frameLength
      · left
        refine ⟨?_, by rw [if_pos hT]⟩
        simp only [State.frameComplete, Bool.and_eq_false_iff, decide_eq_false_iff_not]
        exact .inr (by omega)
      · right
        refine ⟨?_, by rw [if_neg hT, handOff_eq]⟩
        simp only [State.frameComplete, State.framed, Bool.and_eq_true, decide_eq_true_eq]
        exact ⟨⟨⟨by omega, hm⟩, by omega⟩, by omega⟩

/-- Everything INGEST can do (40_assembler.md R100). -/
theorem execIngest_cases (c : List Byte) (s : State) :
    (c = [] ∧ execIngest c s = .next (s.returnStatus .ok)) ∨
    (c ≠ [] ∧ s.cfg.bufCap < s.fill + c.length ∧ execIngest c s = .next (s.discardAll.raise .bufOverflow)) ∨
    (c ≠ [] ∧ s.fill + c.length ≤ s.cfg.bufCap ∧ (s.append c).resync.frameComplete = false ∧
      execIngest c s = .next ((s.append c).resync.returnStatus .ok)) ∨
    (c ≠ [] ∧ s.fill + c.length ≤ s.cfg.bufCap ∧ (s.append c).resync.frameComplete = true ∧
      execIngest c s = .next ((afterFrame (headInstr (s.append c).resync) (s.append c).resync).removeFront
        (s.append c).resync.frameLength)) := by
  unfold execIngest
  by_cases hc : c = []
  · exact .inl ⟨hc, by simp [hc]⟩
  · have hl : c.length ≠ 0 := by simpa using hc
    rw [if_neg hl]
    by_cases ho : s.cfg.bufCap < s.fill + c.length
    · exact .inr (.inl ⟨hc, ho, by rw [if_pos ho]⟩)
    · rw [if_neg ho]
      rcases processFrame_cases (s.append c).resync with ⟨h1, h2⟩ | ⟨h1, h2⟩
      · exact .inr (.inr (.inl ⟨hc, by omega, h1, h2⟩))
      · exact .inr (.inr (.inr ⟨hc, by omega, h1, h2⟩))

/-- A complete frame at the front of the buffer, as a list. -/
theorem decodeFrame_contents_complete (s : State) (h : s.frameComplete = true) :
    decodeFrame s.cfg s.contents = .ok (headInstr s, s.contents.drop s.frameLength) := by
  simp only [State.frameComplete, State.framed, Bool.and_eq_true, decide_eq_true_eq] at h
  obtain ⟨⟨⟨h2, hm⟩, h6⟩, hT⟩ := h
  simp only [State.headIsMarker, Bool.and_eq_true, beq_iff_eq] at hm
  have hlen := s.length_contents
  have hget := fun j hj => s.contents_getD j hj
  have hbytes := s.bytes_eq_contents 4 6 h6
  have hpay := s.bytes_eq_contents 6 (6 + s.payloadLength) (by unfold State.frameLength at hT; omega)
  unfold State.frameLength at hT ⊢
  match hc : s.contents with
  | [] | [_] | [_, _] | [_, _, _] | [_, _, _, _] | [_, _, _, _, _] => simp [hc] at hlen; omega
  | b0 :: b1 :: b2 :: b3 :: b4 :: b5 :: body =>
    rw [hc] at hget hbytes hpay hlen
    have e0 : b0 = s.cfg.sync1 := by rw [← hm.1, ← hget 0 (by omega)]; rfl
    have e1 : b1 = s.cfg.sync2 := by rw [← hm.2, ← hget 1 (by omega)]; rfl
    have e2 : b2 = Memory.read s.buf 2 := by rw [← hget 2 (by omega)]; rfl
    have e3 : b3 = Memory.read s.buf 3 := by rw [← hget 3 (by omega)]; rfl
    have eL : (leU16 [b4, b5] 0).toNat = s.payloadLength := by
      unfold State.payloadLength State.memRead16
      rw [show s.bytes 4 (4 + 2) = [b4, b5] from by simpa using hbytes]
    simp only [List.length_cons] at hlen
    have hL : (leU16 [b4, b5] 0).toNat + 2 ≤ body.length := by omega
    rw [e0, e1, decodeFrame_complete s.cfg b2 b3 b4 b5 body hL, eL]
    have hP : body.take s.payloadLength = s.payload := by
      unfold State.payload
      rw [hpay]
      simp
    have hc0 : body.getD s.payloadLength 0 = Memory.read s.buf (6 + s.payloadLength) := by
      rw [← hget _ (by omega), show 6 + s.payloadLength = s.payloadLength + 1 + 1 + 1 + 1 + 1 + 1 by omega]
      simp
    have hc1 : body.getD (s.payloadLength + 1) 0 = Memory.read s.buf (7 + s.payloadLength) := by
      rw [← hget _ (by omega), show 7 + s.payloadLength = s.payloadLength + 1 + 1 + 1 + 1 + 1 + 1 + 1 by omega]
      simp
    rw [hP, hc0, hc1, e2, e3]
    unfold headInstr
    simp

/-- No complete frame: the wire decoder rejects the valid bytes. -/
theorem decodeFrame_contents_incomplete (s : State) (h : s.frameComplete = false) :
    ∃ e, decodeFrame s.cfg s.contents = .error e := by
  match hd : decodeFrame s.cfg s.contents with
  | .error e => exact ⟨e, rfl⟩
  | .ok (i, rest) =>
    exfalso
    obtain ⟨cls, id, l0, l1, P, c0, c1, hl, hP, -⟩ := decodeFrame_ok _ _ _ _ hd
    have hlen := s.length_contents
    rw [hl] at hlen
    simp only [List.length_cons, List.length_append] at hlen
    have hget := fun j hj => s.contents_getD j hj
    rw [hl] at hget
    have h0 : Memory.read s.buf 0 = s.cfg.sync1 := by rw [← hget 0 (by omega)]; rfl
    have h1 : Memory.read s.buf 1 = s.cfg.sync2 := by rw [← hget 1 (by omega)]; rfl
    have hb := s.bytes_eq_contents 4 6 (by omega)
    rw [hl] at hb
    have hL : s.payloadLength = P.length := by
      unfold State.payloadLength State.memRead16
      rw [hP, show s.bytes 4 (4 + 2) = [l0, l1] from by simpa using hb]
    simp only [State.frameComplete, State.framed, State.headIsMarker, h0, h1, State.frameLength, hL,
      Bool.and_eq_false_iff, decide_eq_false_iff_not] at h
    simp at h
    omega

end Sys2Proof.Machine
end

