-- ==== Sys2Proof/Laws/PerInstr.lean ====
section
/-! SUPPORT. Sys2Proof/Laws/PerInstr.lean: the statements made per instruction (LAWS.json). `EncodedForm` says which of the
table's two formats an instruction's encoding has, and of what length: a command is a request with a code that is not
reserved (30_encoding.md R61, R62), a frame row is L + 8 bytes (R65, R67). -/

namespace Sys2Proof.Laws.EncodedForm

open Sys2Proof

/-- The code is one of R61's five. -/
def commandCode (cmd : BitVec 3) : Bool := cmd != 0b000 && cmd != 0b110 && cmd != 0b111

/-- The payload of a frame instruction; a command has none. -/
def payloadOf : Instr → List Byte
  | .navPvt P _ _ => P
  | .unrecognizedMessage _ P _ _ => P
  | .unrecognizedClass _ _ P _ _ => P
  | .ingest _ | .xfail | .peekAlways | .peekIfNew | .reset => []

def Statement (i : Instr) : Prop :=
  ∀ cfg : Config,
    (i.isCommand = true → ∃ cmd chunk, encode cfg i = .request cmd chunk ∧ commandCode cmd = true) ∧
    (i.isCommand = false → ∃ bytes, encode cfg i = .frame bytes ∧ bytes.length = (payloadOf i).length + 8)

theorem length_frameBytes (cfg : Config) (cls id c0 c1 : Byte) (P : List Byte) :
    (frameBytes cfg cls id P c0 c1).length = P.length + 8 := by
  simp only [frameBytes, Machine.lengthBytes, List.length_append, List.length_cons, List.length_nil]
  omega

theorem ingest (chunk : List Byte) : Statement (.ingest chunk) :=
  fun _ => ⟨fun _ => ⟨_, _, rfl, rfl⟩, fun h => by cases h⟩

theorem xfail : Statement .xfail := fun _ => ⟨fun _ => ⟨_, _, rfl, rfl⟩, fun h => by cases h⟩

theorem peekAlways : Statement .peekAlways := fun _ => ⟨fun _ => ⟨_, _, rfl, rfl⟩, fun h => by cases h⟩

theorem peekIfNew : Statement .peekIfNew := fun _ => ⟨fun _ => ⟨_, _, rfl, rfl⟩, fun h => by cases h⟩

theorem reset : Statement .reset := fun _ => ⟨fun _ => ⟨_, _, rfl, rfl⟩, fun h => by cases h⟩

theorem navPvt (payload : List Byte) (c0 c1 : Byte) : Statement (.navPvt payload c0 c1) :=
  fun _ => ⟨fun h => (by cases h), fun _ => ⟨_, rfl, length_frameBytes _ _ _ _ _ _⟩⟩

theorem unrecognizedMessage (id : Byte) (payload : List Byte) (c0 c1 : Byte) :
    Statement (.unrecognizedMessage id payload c0 c1) :=
  fun _ => ⟨fun h => (by cases h), fun _ => ⟨_, rfl, length_frameBytes _ _ _ _ _ _⟩⟩

theorem unrecognizedClass (cls id : Byte) (payload : List Byte) (c0 c1 : Byte) :
    Statement (.unrecognizedClass cls id payload c0 c1) :=
  fun _ => ⟨fun h => (by cases h), fun _ => ⟨_, rfl, length_frameBytes _ _ _ _ _ _⟩⟩

end Sys2Proof.Laws.EncodedForm
end

