-- ==== Sys2Proof/Laws/Step.lean ====
section
/-! SUPPORT. Sys2Proof/Laws/Step.lean: everything a step can do, said once. -/

namespace Sys2Proof.Machine

open Sys2Proof

/-- A step waits, refuses an overlap, refuses a reserved code, or runs one command. -/
theorem step_cases (s : State) :
    (s.host = [] ∧ step s = .next s) ∨
    (∃ r r' rest, s.host = .overlap r r' :: rest ∧ step s = .refused .overlappingCommands) ∨
    (∃ r rest e, s.host = .command r :: rest ∧ decodeCommand r.cmd r.chunk = .error e ∧
      step s = .refused (.reservedCommand r.cmd)) ∨
    (∃ r rest i, s.host = .command r :: rest ∧ decodeCommand r.cmd r.chunk = .ok i ∧ i.isCommand = true ∧
      step s = exec i { s with host := rest }) := by
  match hh : s.host with
  | [] => exact .inl ⟨rfl, by simp [step, fetch, hh]⟩
  | .overlap r r' :: rest => exact .inr (.inl ⟨r, r', rest, rfl, by simp [step, fetch, hh]⟩)
  | .command r :: rest =>
    match hd : decodeCommand r.cmd r.chunk with
    | .error e => exact .inr (.inr (.inl ⟨r, rest, e, rfl, hd, by simp [step, fetch, hh, hd]⟩))
    | .ok i =>
      exact .inr (.inr (.inr ⟨r, rest, i, rfl, hd, decodeCommand_isCommand _ _ _ hd, by simp [step, fetch, hh, hd]⟩))

/-- The invariant reads the parameters, the buffer and `fill` alone. -/
theorem State.Inv.congr {s t : State} (h : s.Inv) (hb : t.buf = s.buf) (hf : t.fill = s.fill) (hc : t.cfg = s.cfg) :
    t.Inv := by
  unfold State.Inv at *
  rw [hb, hf, hc]
  exact h

end Sys2Proof.Machine
end

