-- ==== Sys2Proof/Tests/Slice0.lean ====
section
/-! SUPPORT. Sys2Proof/Tests/Slice0.lean: the ill-formed terms WellFormed refuses, one word per encoding written out from
the spec, at most two one-step tests per instruction from 95_test_vectors.md, and for each statement of Obligations.lean
with hypotheses a concrete state and operands that meet them. -/

namespace Sys2Proof.Tests

open Sys2Proof
open Sys2Proof.Machine

/-- The reset state holding these valid bytes. -/
def holding (bytes : List Byte) : State :=
  { State.reset with buf := Memory.writeBytes [] 0 bytes, fill := bytes.length }

/-- The next state, if there is one. -/
def after : Host.Outcome State Fault Refusal → Option State
  | .next t => some t
  | .fault _ => none
  | .refused _ => none

/-- `U8`, the minimal frame of an unrecognized class (95_test_vectors.md §2). -/
def frameU8 : List Byte := [0xB5, 0x62, 0x0A, 0x01, 0x00, 0x00, 0x00, 0x00]

/-- `F = FRAME(01, 07, PV)` (95_test_vectors.md §2). -/
def frameF : List Byte := [0xB5, 0x62, 0x01, 0x07, 0x5C, 0x00] ++ samplePayload ++ [0x00, 0x00]

/-- An unread record of longitude 123456789. -/
def unread : State := { State.reset with fresh := true, record := { Record.zero with lon := 123456789 } }

/-- The reset state with one command presented. -/
def presenting (e : HostEvent) : State := { State.reset with host := [e] }

/-! ### WellFormed refuses an ill-formed term for each check -/

theorem test_wf_config_refuses_small_buffer : Config.wf { bufCap := 7 } = false := by decide
theorem test_wf_config_refuses_other_pdop : Config.wf { pdopOffset := 74 } = false := by decide
theorem test_wf_config_accepts_both_offsets :
    Config.wf Config.default = true ∧ Config.wf { bufCap := 8, pdopOffset := 76 } = true := by decide
theorem test_wf_refuses_long_chunk : Instr.wf { bufCap := 8 } (.ingest (List.replicate 9 0)) = false := by decide
theorem test_wf_accepts_full_chunk : Instr.wf { bufCap := 8 } (.ingest (List.replicate 8 0)) = true := by decide
theorem test_wf_refuses_long_payload : payloadFitsLength (List.replicate 65536 0) = false := by
  unfold payloadFitsLength
  rw [List.length_replicate]
  decide
theorem test_wf_refuses_recognized_id : Instr.wf Config.default (.unrecognizedMessage 0x07 [] 0 0) = false := by decide
theorem test_wf_refuses_recognized_class : Instr.wf Config.default (.unrecognizedClass 0x01 0x07 [] 0 0) = false := by
  decide

/-! ### Decoding: words written out from 30_encoding.md R61, R65 and R74 -/

theorem test_decode_ingest : decodeCommand 0b001 [0x00, 0xB5] = .ok (.ingest [0x00, 0xB5]) := rfl
theorem test_decode_xfail : decodeCommand 0b010 [] = .ok .xfail := rfl
theorem test_decode_peekAlways : decodeCommand 0b011 [] = .ok .peekAlways := rfl
theorem test_decode_peekIfNew : decodeCommand 0b100 [] = .ok .peekIfNew := rfl
theorem test_decode_reset : decodeCommand 0b101 [] = .ok .reset := rfl
theorem test_decode_reserved : decodeCommand 0b000 [] = .error (.reservedCommand 0b000) ∧
    decodeCommand 0b110 [] = .error (.reservedCommand 0b110) ∧
    decodeCommand 0b111 [] = .error (.reservedCommand 0b111) := ⟨rfl, rfl, rfl⟩
-- B5 62 | 01 07 | length 0002 | AB CD | trailer 12 34
theorem test_decode_navPvt :
    decodeFrame Config.default [0xB5, 0x62, 0x01, 0x07, 0x02, 0x00, 0xAB, 0xCD, 0x12, 0x34] =
      .ok (.navPvt [0xAB, 0xCD] 0x12 0x34, []) := by rfl
theorem test_decode_unrecognizedMessage :
    decodeFrame Config.default [0xB5, 0x62, 0x01, 0x02, 0x00, 0x00, 0x12, 0x34, 0x99] =
      .ok (.unrecognizedMessage 0x02 [] 0x12 0x34, [0x99]) := by rfl
theorem test_decode_unrecognizedClass :
    decodeFrame Config.default [0xB5, 0x62, 0x0A, 0x01, 0x01, 0x00, 0x99, 0xAA, 0xBB] =
      .ok (.unrecognizedClass 0x0A 0x01 [0x99] 0xAA 0xBB, []) := by rfl
theorem test_decode_rejects_by_name :
    decodeFrame Config.default [0xB5] = .error .shortHeader ∧
      decodeFrame Config.default [0xB5, 0x62, 0x01, 0x07, 0x00] = .error .shortHeader ∧
      decodeFrame Config.default [0xB5, 0x63, 0x01, 0x07, 0x00, 0x00, 0x00, 0x00] = .error .notFramed ∧
      decodeFrame Config.default [0xB5, 0x62, 0x01, 0x07, 0x01, 0x00, 0x00, 0x00] = .error .incompleteFrame :=
  ⟨rfl, rfl, rfl, rfl⟩
-- P2 of 95_test_vectors.md: F begins B5 62 01 07 5C 00 and is 100 bytes
theorem test_encode_navPvt : encode Config.default (.navPvt samplePayload 0 0) = .frame frameF := by decide
theorem test_text_ingest :
    (Instr.ingest [0x00, 0xFF, 0xB5]).text Config.default = "INGEST [00 FF B5]" ∧
      (Instr.ingest []).text Config.default = "INGEST []" := by decide
theorem test_text_response :
    Response.text (fun _ => "rec") (Response.ofStatus .bufOverflow) = "-> BUF_OVERFLOW" ∧
      Response.text (fun _ => "rec") Response.ofNothingNew = "-> has_new=0" := by decide

/-! ### One step, from 95_test_vectors.md -/

-- T-A23: several false SYNC1 before a frame, one pass per candidate
theorem test_ingest_resync_passes :
    (after (exec (.ingest ([0xB5, 0x00, 0xB5, 0x11] ++ frameU8)) State.reset)).map
      (fun t => (t.contents, t.response.status)) = some ([], some .unrecognizedClass) := by decide +kernel
-- T-A40: the remainder is not resynced in the same command; its head is checked at the next one
theorem test_ingest_remainder_waits :
    (after (exec (.ingest (frameU8 ++ [0xB5, 0x00, 0xB5])) State.reset)).map (fun t => t.contents) =
      some [0xB5, 0x00, 0xB5] ∧
    (after (exec (.ingest [0x62]) (holding [0xB5, 0x00, 0xB5]))).map (fun t => t.contents) = some [0xB5, 0x62] := by
  decide +kernel
-- T-A22
theorem test_xfail_keeps_the_buffer :
    (after (exec .xfail (holding [0xB5, 0x62]))).map (fun t => (t.contents, t.response.status)) =
      some ([0xB5, 0x62], some .transportFailure) := by decide
-- T-P1 and T-P4
theorem test_peekAlways_after_reset :
    (after (exec .peekAlways State.reset)).map (fun t => (t.response.recOut, t.fresh)) = some (some Record.zero, false) :=
  by decide
theorem test_peekAlways_consumes :
    (after (exec .peekAlways unread)).map (fun t => (t.response.recOut.map Record.lon, t.fresh)) =
      some (some 123456789, false) := by decide
-- T-P8 and T-P9
theorem test_peekIfNew_new :
    (after (exec .peekIfNew unread)).map (fun t => (t.response.hasNew, t.response.recOut.map Record.lon, t.fresh)) =
      some (some true, some 123456789, false) := by decide
theorem test_peekIfNew_nothing :
    (after (exec .peekIfNew State.reset)).map (fun t => (t.response.hasNew, t.response.recOut)) = some (some false, none) :=
  by decide
-- 70_reset_and_hazards.md R200, worked example
theorem test_reset_discards :
    (after (exec .reset { holding [1, 2, 3, 4, 5] with fresh := true })).map (fun t => (t.fill, t.fresh, t.record)) =
      some (0, false, Record.zero) := by decide
-- T-A32 and T-X1: the whole frame F through INGEST
theorem test_navPvt_through_ingest :
    (after (exec (.ingest frameF) State.reset)).map
      (fun t => (t.fill, t.fresh, t.response.status, t.record.lon.toInt, t.record.lat.toInt, t.record.pdop)) =
      some (0, true, some .ok, 123456789, -337890123, 18928) := by decide +kernel
-- T-X30: L = 77 with PDOP_OFFSET = 76
theorem test_navPvt_short_at_offset_76 :
    (after (exec (.navPvt (samplePayload.take 77) 0 0) (State.resetWith { pdopOffset := 76 }))).map
      (fun t => (t.response.status, t.fresh)) = some (some .shortPayload, false) := by decide
-- T-X35 and T-X37
theorem test_unrecognizedMessage_status :
    (after (exec (.unrecognizedMessage 0x06 samplePayload 0 0) unread)).map (fun t => (t.response.status, t.fresh)) =
      some (some .unrecognizedMessage, true) := by decide
theorem test_unrecognizedClass_before_length :
    (after (exec (.ingest [0xB5, 0x62, 0x0A, 0x07, 0x00, 0x00, 0x00, 0x00]) State.reset)).map
      (fun t => t.response.status) = some (some .unrecognizedClass) := by decide +kernel
-- S1: 123456789 decodes to 12.3456789
theorem test_scaled_lon : unread.record.scaled .lon = 123456789 / 10000000 := by
  have hraw : unread.record.raw .lon = 123456789 := by decide
  simp only [Record.scaled, Rat.mkRat_eq_div, hraw]
  norm_num [ScaledField.divisor]
-- the host's question: the table's word for NAV_PVT, placed and stepped
theorem test_step_table_word :
    (after (step (State.reset.withFetchWord 32 0x070162B5))).map (fun t => (t.fill, t.response.status)) =
      some (0, some .shortPayload) := by decide +kernel

/-! ### Witnesses: states and operands that meet each statement's hypotheses -/

theorem witness_ReservedCodesAreRefused :
    (presenting (.command ⟨0b000, []⟩)).host = .command ⟨0b000, []⟩ :: [] ∧
      (presenting (.command ⟨0b111, [1]⟩)).host = .command ⟨0b111, [1]⟩ :: [] := by decide
theorem witness_OverlappingCommandsAreRefused :
    (presenting (.overlap ⟨0b001, []⟩ ⟨0b011, []⟩)).host = .overlap ⟨0b001, []⟩ ⟨0b011, []⟩ :: [] := by decide
theorem witness_StepRunsDecodedCommand :
    (presenting (.command ⟨0b010, []⟩)).host = .command ⟨0b010, []⟩ :: [] ∧ decodeCommand 0b010 [] = .ok .xfail :=
  ⟨rfl, rfl⟩
theorem witness_StepWaitsForTheHost : State.reset.host = [] := rfl
theorem witness_PlacedTableWordIsRunNext :
    decodeTableWord 8 0x1 = some (.ingest []) ∧ State.reset.cfg = Config.default ∧
      Memory.wf State.reset.buf = true ∧ decodeTableWord 32 0x070162B5 = some (.navPvt [] 0 0) := by decide
theorem witness_ResponseFieldsAreTheCommands :
    (after (exec .peekAlways unread)).isSome ∧ (after (exec .peekIfNew unread)).isSome ∧
      (after (exec .reset unread)).isSome ∧ (after (exec (.ingest [0]) unread)).isSome := by decide
theorem witness_DecodeOfEncodeIsTheInstruction :
    Instr.wf Config.default (.navPvt samplePayload 1 2) = true ∧
      Instr.wf Config.default (.unrecognizedMessage 0x02 [] 0 0) = true ∧
      Instr.wf Config.default (.unrecognizedClass 0x0A 0x07 [1] 0 0) = true ∧
      Instr.wf Config.default (.ingest (List.replicate 128 0)) = true ∧
      encode Config.default (.unrecognizedClass 0x0A 0x01 [] 0 0) = .frame frameU8 := by decide
theorem witness_DecoderAcceptsOnlyEncodings :
    decodeFrame Config.default (frameU8 ++ [7]) = .ok (.unrecognizedClass 0x0A 0x01 [] 0 0, [7]) ∧
      decodeCommand 0b001 [7] = .ok (.ingest [7]) := ⟨rfl, rfl⟩
theorem witness_FrameBytesByRegion :
    ([] : List Byte).length < 65536 ∧ 7 < ([] : List Byte).length + 8 ∧ regionOf 0 7 = .trailer ∧
      regionOf 0 5 = .length ∧ regionOf 1 6 = .payload ∧ regionOf 1 7 = .trailer ∧ regionOf 1 8 = .trailer ∧
      regionOf 0 1 = .marker ∧ regionOf 0 2 = .cls ∧ regionOf 0 3 = .id := by decide
theorem witness_BufferPrimitivesMoveTheirBytes :
    Memory.wf (holding frameU8).buf = true ∧ 8 ≤ (holding frameU8).fill := by decide
theorem witness_ResyncEndsInOneOfThreeOutcomes :
    Memory.wf (holding [0x00, 0xB5]).buf = true ∧ (holding [0x00, 0xB5]).resync.fill = 1 ∧
      Memory.wf (holding [0xB5, 0xB5, 0x62]).buf = true ∧ (holding [0xB5, 0xB5, 0x62]).resync.framed = true ∧
      Memory.wf (holding [0xB5, 0x00]).buf = true ∧ (holding [0xB5, 0x00]).resync.framed = false ∧
      (holding [0xB5, 0x00]).resync.fill = 2 ∧ Config.default.sync1 ∉ [(0x62 : Byte)] := by decide
theorem witness_ResyncDropsNoMarker :
    Memory.wf (holding [0x11, 0xB5, 0x62]).buf = true ∧ (holding [0x11, 0xB5, 0x62]).resync.contents = [0xB5, 0x62] := by
  decide
-- T-A12 to T-A14: exactly full, one too many, longer than BUF_CAP
theorem witness_OverflowDropsEverything :
    let s : State := { State.reset with fill := 100 }
    List.replicate 29 (0 : Byte) ≠ [] ∧ s.cfg.bufCap < s.fill + (List.replicate 29 (0 : Byte)).length ∧
      s.fill + (List.replicate 28 (0 : Byte)).length ≤ s.cfg.bufCap ∧
      s.cfg.bufCap < (List.replicate 129 (0 : Byte)).length := by decide
-- fewer than 6 bytes; an unframed head; one byte short of T
theorem witness_IngestWaitsForACompleteFrame :
    (State.reset.append [0xB5, 0x62, 1, 7, 0]).resync.fill < 6 ∧
      (State.reset.append [0, 1, 2, 3, 4, 5]).resync.framed = false ∧
      (State.reset.append (frameU8.take 7)).resync.fill = 7 ∧
      (State.reset.append (frameU8.take 7)).resync.frameLength = 8 ∧
      (State.reset.append frameU8).resync.frameComplete = true := by decide +kernel
theorem witness_CompleteFrameIsDecodedThenRemoved :
    frameU8 ≠ [] ∧ State.reset.fill + frameU8.length ≤ State.reset.cfg.bufCap ∧ Memory.wf State.reset.buf = true ∧
      6 ≤ (State.reset.append frameU8).resync.fill ∧ (State.reset.append frameU8).resync.framed = true ∧
      (State.reset.append frameU8).resync.frameLength ≤ (State.reset.append frameU8).resync.fill := by decide +kernel
theorem witness_OneFramePerIngest :
    State.reset.Inv ∧ State.reset.fill = 0 ∧ Instr.wf Config.default (.unrecognizedClass 0x0A 0x01 [] 0 0) = true ∧
      encode Config.default (.unrecognizedClass 0x0A 0x01 [] 0 0) = .frame frameU8 ∧ [(0 : Byte)] ≠ [] ∧
      (frameU8 ++ frameU8).length ≤ Config.default.bufCap := by decide
theorem witness_FillStaysWithinCapacity : (holding frameU8).fill ≤ (holding frameU8).cfg.bufCap := by decide
-- T-A18 to T-A20
theorem witness_OversizedFrameHoldsUntilOverflow :
    let s := holding [0xB5, 0x62, 0x01, 0x07, 0xFF, 0xFF]
    s.Inv ∧ s.framed = true ∧ 6 ≤ s.fill ∧ s.cfg.bufCap < s.frameLength ∧
      s.fill + (List.replicate 122 (0 : Byte)).length ≤ s.cfg.bufCap ∧
      s.cfg.bufCap < s.fill + (List.replicate 123 (0 : Byte)).length := by decide +kernel
theorem witness_GarbageIsKeptUntilACandidate :
    Memory.wf (holding [0xB5, 0x00]).buf = true ∧ framedList Config.default ((holding [0xB5, 0x00]).contents ++ [0x11]) = false ∧
      Config.default.sync1 ∉ ((holding [0xB5, 0x00]).contents ++ [0x11]).drop 1 := by decide
-- the split inside the length field, T-A21
theorem witness_SplitFrameDecodesAsTheWhole :
    State.reset.Inv ∧ State.reset.fill = 0 ∧ Instr.wf Config.default (.unrecognizedClass 0x0A 0x01 [] 0 0) = true ∧
      encode Config.default (.unrecognizedClass 0x0A 0x01 [] 0 0) = .frame frameU8 ∧
      frameU8.length ≤ Config.default.bufCap ∧ 0 < 5 ∧ 5 < frameU8.length := by decide
theorem witness_GarbageThenFrameIsDecoded :
    State.reset.Inv ∧ Config.default.sync1 ≠ Config.default.sync2 ∧ hasMarker Config.default [0x00, 0xB5] = false ∧
      [[0x00, 0xB5, 0xB5], [0x62, 0x0A], [0x01, 0, 0, 0, 0]].flatten = [0x00, 0xB5] ++ frameU8 ∧
      (deliverAll [[0x00, 0xB5, 0xB5], [0x62, 0x0A], [0x01, 0, 0, 0, 0]] State.reset).isSome ∧
      [[0x00, 0xB5, 0xB5], [0x62, 0x0A]].flatten ++ [0x01, 0, 0, 0, 0] = [0x00, 0xB5] ++ frameU8 ∧
      (deliverAll [[0x00, 0xB5, 0xB5], [0x62, 0x0A]] State.reset).isSome := by decide +kernel
theorem witness_IngestRefinesTheByteListMachine : (holding frameU8).Inv := by decide
theorem witness_IngestWritesTheCellOnlyByDecoding :
    (after (exec (.ingest frameF) State.reset)).map State.fresh = some true ∧
      (after (exec (.ingest [0]) unread)).map State.fresh = some true ∧ (after (exec .xfail unread)).isSome := by
  decide +kernel
theorem witness_IngestFrame :
    Memory.wf (holding frameU8).buf = true ∧ (after (exec (.ingest [7]) (holding frameU8))).isSome ∧
      (after (exec (.ingest (List.replicate 121 7)) (holding frameU8))).isSome := by decide +kernel
theorem witness_UnrecognizedFramesAreReportedAndRemoved :
    (0x0A : Byte) ≠ State.reset.cfg.pvtClass ∧ (0x02 : Byte) ≠ State.reset.cfg.pvtId ∧ State.reset.Inv ∧
      ([] : List Byte).length + 8 ≤ State.reset.cfg.bufCap := by decide
theorem witness_ShortPayloadIsRejected :
    (samplePayload.take 75).length < State.reset.cfg.pvtMinLen ∧
      (samplePayload.take 75).length + 8 ≤ State.reset.cfg.bufCap ∧
      State.reset.cfg.pvtMinLen ≤ (samplePayload.take 76).length := by decide
theorem witness_ExtractionDependsOnThePayloadAlone :
    State.reset.cfg = unread.cfg ∧ State.reset.cfg.pvtMinLen ≤ samplePayload.length ∧
      (samplePayload.take 76 ++ [1, 2]).take State.reset.cfg.pvtMinLen =
        samplePayload.take State.reset.cfg.pvtMinLen := by decide
theorem witness_FieldsAreExtracted :
    State.reset.cfg.pvtMinLen ≤ samplePayload.length ∧ State.reset.cfg.pdopOffset = 72 := by decide
theorem witness_NoPartialRecord :
    Instr.isCommand (.navPvt [] 0 0) = false ∧
      (after (exec (.navPvt [] 0 0) unread)).map State.response = some (Response.ofStatus .shortPayload) ∧
      Response.ofStatus .shortPayload ≠ Response.ofStatus .ok := by decide
theorem witness_AllZeroPayloadLooksLikeReset : State.reset.cfg.pvtMinLen ≤ 76 := by decide
theorem witness_TrailerIsNeverRead :
    State.reset.Inv ∧ State.reset.fill = 0 ∧ samplePayload.length < 65536 ∧
      samplePayload.length + 8 ≤ State.reset.cfg.bufCap := by decide
theorem witness_PayloadBeyondTheMinimumIsIgnored :
    State.reset.cfg.pvtMinLen ≤ (samplePayload ++ [1]).length ∧ (samplePayload.take 75).length < State.reset.cfg.pvtMinLen := by
  decide
theorem witness_ScaledViewIsExact : unread.record.lon = 123456789 := rfl
theorem witness_PeekIfNewFiresOnce :
    unread.fresh = true ∧ State.reset.fresh = false ∧ (after (exec .peekIfNew unread)).isSome ∧
      (after (exec .peekAlways unread)).isSome := by decide
theorem witness_ErrorsKeepAnUnreadRecord :
    (after (exec .xfail unread)).map State.response = some (Response.ofStatus .transportFailure) ∧
      Status.transportFailure ≠ .ok ∧ unread.fresh = true := by decide
theorem witness_NonStoringInstructionsFrame :
    (∀ c, Instr.xfail ≠ .ingest c) ∧ (after (exec .xfail unread)).isSome ∧ (after (exec .reset unread)).isSome ∧
      (after (exec (.unrecognizedMessage 2 [] 0 0) unread)).isSome := ⟨fun _ h => (by cases h), by decide⟩
theorem witness_RunsWithinTheContractNeverStop :
    ({ State.reset with host := [.command ⟨0b001, frameU8⟩, .command ⟨0b100, []⟩] } : State).hostInContract := by decide
theorem witness_StepKeepsTheInvariant :
    (presenting (.command ⟨0b001, frameU8⟩)).Inv ∧ (after (step (presenting (.command ⟨0b001, frameU8⟩)))).isSome := by
  decide +kernel
theorem witness_OnlyDecodeAndResetWriteTheCell :
    (after (step (presenting (.command ⟨0b001, frameF⟩)))).map (fun t => (t.fresh, decide (t.record = Record.zero))) =
      some (true, false) ∧
    (after (step { unread with host := [.command ⟨0b101, []⟩] })).map (fun t => (t.fresh, decide (t.record = unread.record))) =
      some (false, false) ∧
    (after (step { unread with host := [.command ⟨0b011, []⟩] })).map State.fresh = some false := by decide +kernel
theorem witness_OnlyIngestWritesTheBuffer :
    (after (step (presenting (.command ⟨0b001, [7]⟩)))).map (fun t => (decide (t.buf = []), t.fill)) = some (false, 1) ∧
      (after (step { holding [7] with host := [.command ⟨0b101, []⟩] })).map State.fill = some 0 := by decide +kernel
theorem witness_StaleBytesAreUnobservable :
    let s := holding [0xB5]
    let s' : State := { holding [0xB5, 0x62, 0x01] with fill := 1 }
    s.Inv ∧ s'.Inv ∧ s.sameButStale s' ∧ s.buf ≠ s'.buf := by decide
theorem witness_DecodingNeedsCapacity :
    (after (exec (.ingest frameF) State.reset)).map State.fresh = some true ∧ State.reset.fresh = false ∧
      State.reset.Inv ∧ (after (exec (.ingest [0xB5, 0x62, 0, 0, 0, 0, 0]) (State.resetWith { bufCap := 7 }))).isSome := by
  decide +kernel

end Sys2Proof.Tests
end

section
/-! Proofs of the statements of 00_scope.md: the readers (R8), the step (R4), and what the parameters bound (R5). -/

namespace Sys2Proof.Machine

open Sys2Proof

/-! ### The signed reader -/

/-- R8: `le_i32` is `le_u32` less 2^32 from 2^31 on. -/
theorem leI32_toInt (B : List Byte) (o : Nat) :
    (leI32 B o).toInt =
      if 2 ^ 31 ≤ (leU32 B o).toNat then ((leU32 B o).toNat : Int) - 2 ^ 32 else ((leU32 B o).toNat : Int) := by
  rw [leI32, BitVec.toInt_eq_toNat_cond]
  by_cases h : 2 ^ 31 ≤ (leU32 B o).toNat
  · rw [if_pos h, if_neg (by omega)]
    rfl
  · rw [if_neg h, if_pos (by omega)]

/-! ### One step -/

/-- A request the decoder accepts is fetched, and its transaction is taken from the stream. -/
theorem fetch_of_decodeCommand {s : State} {r : Request} {rest : List HostEvent} {i : Instr}
    (hh : s.host = .command r :: rest) (hd : decodeCommand r.cmd r.chunk = .ok i) :
    fetch s = .run i { s with host := rest } := by
  simp only [fetch, hh, hd]

/-- No instruction writes the parameters (R5) or the host's stream. -/
theorem exec_cfg_host {i : Instr} {s t : State} (h : exec i s = .next t) : t.cfg = s.cfg ∧ t.host = s.host := by
  cases i with
  | ingest c =>
    change execIngest c s = .next t at h
    rcases execIngest_cases c s with ⟨-, he⟩ | ⟨-, -, he⟩ | ⟨-, -, -, he⟩ | ⟨-, -, -, he⟩ <;>
    · obtain rfl := Host.Outcome.next.inj (he.symm.trans h)
      simp
  | peekIfNew =>
    simp only [exec, execPeekIfNew] at h
    split at h <;> cases h <;> exact ⟨rfl, rfl⟩
  | xfail | peekAlways | reset =>
    cases h
    exact ⟨rfl, rfl⟩
  | navPvt | unrecognizedMessage | unrecognizedClass =>
    rw [exec_frame _ _ rfl] at h
    cases h
    exact ⟨afterFrame_cfg _ _, afterFrame_host _ _⟩

/-! ### What a complete frame needs of the buffer -/

/-- A complete frame lies within the valid bytes (R11). -/
theorem State.frameLength_le_fill {s : State} (h : s.frameComplete = true) : s.frameLength ≤ s.fill := by
  simp only [State.frameComplete, Bool.and_eq_true, decide_eq_true_eq] at h
  exact h.2

/-- After a chunk that fits, a complete frame has at most BUF_CAP bytes. -/
theorem frameLength_le_bufCap {c : List Byte} {s : State} (hfit : s.fill + c.length ≤ s.cfg.bufCap)
    (hT : (s.append c).resync.frameComplete = true) : (s.append c).resync.frameLength ≤ s.cfg.bufCap := by
  calc (s.append c).resync.frameLength
      ≤ (s.append c).resync.fill := State.frameLength_le_fill hT
    _ ≤ (s.append c).fill := State.resync_fill_le _
    _ = s.fill + c.length := State.append_fill s c
    _ ≤ s.cfg.bufCap := hfit

/-- Only the recognized message, with payload enough, raises `fresh` (R132, R166). -/
theorem navPvt_of_afterFrame_fresh {i : Instr} {s : State} (hs : s.fresh = false)
    (h : (afterFrame i s).fresh = true) : ∃ P c0 c1, i = .navPvt P c0 c1 ∧ s.cfg.pvtMinLen ≤ P.length := by
  cases i with
  | navPvt P c0 c1 =>
    by_cases hP : P.length < s.cfg.pvtMinLen
    · simp [afterFrame, hP, hs] at h
    · exact ⟨P, c0, c1, rfl, by omega⟩
  | _ => simp [afterFrame, hs] at h

/-- The recognized message at the front of the buffer carries the payload of the frame view (R41). -/
theorem payload_of_headInstr_eq_navPvt {s : State} {P : List Byte} {c0 c1 : Byte}
    (h : headInstr s = .navPvt P c0 c1) : P = s.payload := by
  unfold headInstr frameInstr at h
  split at h
  · split at h <;> cases h
    rfl
  · cases h

/-- A frame whose decode raises `fresh` has PVT_MIN_LEN + 8 bytes or more. -/
theorem pvtMinLen_le_frameLength {s : State} (hs : s.fresh = false)
    (h : (afterFrame (headInstr s) s).fresh = true) : s.cfg.pvtMinLen + 8 ≤ s.frameLength := by
  obtain ⟨P, c0, c1, hi, hP⟩ := navPvt_of_afterFrame_fresh hs h
  rw [payload_of_headInstr_eq_navPvt hi, State.payload, State.length_bytes] at hP
  unfold State.frameLength
  omega

end Sys2Proof.Machine

open Sys2Proof Sys2Proof.Machine

/-- Settles O10, from the sum each reader is and the two's-complement reading of `le_u32`. -/
theorem littleEndianReadersAreExact : Obligations.LittleEndianReadersAreExact := by
  intro B o
  exact ⟨rfl, leU16_toNat B o, leU32_toNat B o, leI32_toInt B o⟩

/-- Settles O55, from what a step can do and what every instruction leaves alone. -/
theorem stepKeepsParametersAndTakesOneTransaction : Obligations.StepKeepsParametersAndTakesOneTransaction := by
  intro s t h
  rcases step_cases s with ⟨hh, hs⟩ | ⟨r, r', rest, -, hs⟩ | ⟨r, rest, e, -, -, hs⟩ | ⟨r, rest, i, hh, -, -, hs⟩
  · cases hs.symm.trans h
    simp [hh]
  · cases hs.symm.trans h
  · cases hs.symm.trans h
  · obtain ⟨hcfg, hhost⟩ := exec_cfg_host (hs.symm.trans h)
    exact ⟨hcfg, by rw [hhost, hh]; rfl⟩

/-- Settles O59: of INGEST's four outcomes only a complete frame can raise `fresh` or answer another status, and a complete
frame lies within BUF_CAP. -/
theorem decodingNeedsCapacity : Obligations.DecodingNeedsCapacity := by
  intro c s t _ h
  rcases execIngest_cases c s with ⟨-, he⟩ | ⟨-, -, he⟩ | ⟨-, -, -, he⟩ | ⟨-, hfit, hT, he⟩ <;>
    obtain rfl := Host.Outcome.next.inj (he.symm.trans h)
  · exact ⟨fun ht hs => by simp [hs] at ht, fun _ => .inl rfl⟩
  · exact ⟨fun ht hs => by simp [hs] at ht, fun _ => .inr rfl⟩
  · exact ⟨fun ht hs => by simp [hs] at ht, fun _ => .inl rfl⟩
  · have hcap := frameLength_le_bufCap hfit hT
    refine ⟨fun ht hs => ?_, fun hsmall => ?_⟩
    · have hlen := pvtMinLen_le_frameLength (s := (s.append c).resync) (by simpa using hs) ht
      simp only [State.resync_cfg, State.append_cfg] at hlen
      exact hlen.trans hcap
    · simp only [State.frameLength] at hcap
      omega

/-- Settles O4: the fetch gives the decoded instruction and the state without its transaction. -/
theorem stepRunsDecodedCommand : Obligations.StepRunsDecodedCommand := by
  intro s r rest i hh hd
  simp only [step, fetch_of_decodeCommand hh hd]

end

section
/-! Proofs of the statements of 10_state.md: the invariant (R22, R30), the only writers of the cell (R24, R26) and of the
buffer (R21, R22), and that no stale byte is observable (R23). -/

namespace Sys2Proof.Machine

open Sys2Proof

/-! ### A step that answers a next state -/

/-- The decoder accepts R61's five codes, each as its command. -/
theorem decodeCommand_ok_cases {cmd : BitVec 3} {chunk : List Byte} {i : Instr}
    (h : decodeCommand cmd chunk = .ok i) :
    (cmd = 0b001 ∧ i = .ingest chunk) ∨ (cmd = 0b010 ∧ i = .xfail) ∨ (cmd = 0b011 ∧ i = .peekAlways) ∨
      (cmd = 0b100 ∧ i = .peekIfNew) ∨ (cmd = 0b101 ∧ i = .reset) := by
  unfold decodeCommand at h
  repeat' split at h
  all_goals cases h
  all_goals simp [*]

/-- The fetch reads the host's stream alone. -/
theorem fetch_agrees {s t : State} (h : s.host = t.host) :
    (fetch s = .idle ∧ fetch t = .idle) ∨ (∃ r, fetch s = .stop r ∧ fetch t = .stop r) ∨
      ∃ i rest, fetch s = .run i { s with host := rest } ∧ fetch t = .run i { t with host := rest } := by
  unfold fetch
  rw [← h]
  split
  · exact .inl ⟨rfl, rfl⟩
  · exact .inr (.inl ⟨_, rfl, rfl⟩)
  · split
    · exact .inr (.inr ⟨_, _, rfl, rfl⟩)
    · exact .inr (.inl ⟨_, rfl, rfl⟩)

/-- A step that answers a next state has waited, or has run a decoded command. -/
theorem step_next_cases {s t : State} (h : step s = .next t) :
    t = s ∨ ∃ r rest i, s.host = .command r :: rest ∧ decodeCommand r.cmd r.chunk = .ok i ∧
      exec i { s with host := rest } = .next t := by
  rcases step_cases s with ⟨-, hs⟩ | ⟨r, r', rest, -, hs⟩ | ⟨r, rest, e, -, -, hs⟩ | ⟨r, rest, i, hh, hd, -, hs⟩
  · cases hs.symm.trans h
    exact .inl rfl
  · cases hs.symm.trans h
  · cases hs.symm.trans h
  · exact .inr ⟨r, rest, i, hh, hd, hs.symm.trans h⟩

/-- An INGEST runs only for a transaction with INGEST's code and its chunk. -/
theorem host_of_decodeCommand_ingest {s : State} {r : Request} {rest : List HostEvent} {c : List Byte}
    (hh : s.host = .command r :: rest) (hd : decodeCommand r.cmd r.chunk = .ok (.ingest c)) :
    s.host = .command ⟨0b001, c⟩ :: rest := by
  obtain ⟨cmd, chunk⟩ := r
  rcases decodeCommand_ok_cases hd with ⟨rfl, hi⟩ | ⟨-, hi⟩ | ⟨-, hi⟩ | ⟨-, hi⟩ | ⟨-, hi⟩ <;> cases hi
  exact hh

/-! ### What an instruction does to the buffer -/

/-- Every instruction but INGEST leaves the buffer (R21), and every one but INGEST and RESET leaves `fill` (R22). -/
theorem exec_buf_fill {i : Instr} {s t : State} (hi : ∀ c, i ≠ .ingest c) (h : exec i s = .next t) :
    t.buf = s.buf ∧ (t.fill = s.fill ∨ i = .reset ∧ t.fill = 0) := by
  cases i with
  | ingest c => exact absurd rfl (hi c)
  | peekIfNew =>
    simp only [exec, execPeekIfNew] at h
    split at h <;> cases h <;> exact ⟨rfl, .inl rfl⟩
  | reset =>
    cases h
    exact ⟨rfl, .inr ⟨rfl, rfl⟩⟩
  | xfail | peekAlways =>
    cases h
    exact ⟨rfl, .inl rfl⟩
  | navPvt | unrecognizedMessage | unrecognizedClass =>
    rw [exec_frame _ _ rfl] at h
    cases h
    exact ⟨afterFrame_buf _ _, .inl (afterFrame_fill _ _)⟩

/-! ### The invariant -/

theorem State.resetWith_inv (cfg : Config) : (State.resetWith cfg).Inv :=
  ⟨rfl, rfl, Nat.zero_le _⟩

/-- Lowering `fill` over the same buffer keeps the invariant. -/
theorem State.Inv.of_fill_le {s t : State} (h : s.Inv) (hb : t.buf = s.buf) (hf : t.fill ≤ s.fill)
    (hc : t.cfg = s.cfg) : t.Inv := by
  obtain ⟨hwf, hbelow, hfill⟩ := h
  exact ⟨hb ▸ hwf, hb ▸ hc ▸ hbelow, hc ▸ hf.trans hfill⟩

theorem execIngest_inv {c : List Byte} {s t : State} (hs : s.Inv) (h : execIngest c s = .next t) : t.Inv := by
  rcases execIngest_cases c s with ⟨-, he⟩ | ⟨-, -, he⟩ | ⟨-, hfit, -, he⟩ | ⟨-, hfit, -, he⟩ <;>
    obtain rfl := Host.Outcome.next.inj (he.symm.trans h)
  · exact hs.congr rfl rfl rfl
  · exact hs.of_fill_le rfl (Nat.zero_le _) rfl
  · exact (State.resync_inv _ (s.append_inv c hs hfit)).congr rfl rfl rfl
  · have hresync := State.resync_inv _ (s.append_inv c hs hfit)
    exact State.removeFront_inv _ _ (hresync.congr (afterFrame_buf _ _) (afterFrame_fill _ _) (afterFrame_cfg _ _))

theorem exec_inv {i : Instr} {s t : State} (hs : s.Inv) (h : exec i s = .next t) : t.Inv := by
  by_cases hi : ∃ c, i = .ingest c
  · obtain ⟨c, rfl⟩ := hi
    exact execIngest_inv hs h
  · obtain ⟨hbuf, hfill⟩ := exec_buf_fill (by simpa using hi) h
    exact hs.of_fill_le hbuf (by omega) (exec_cfg_host h).1

/-! ### What an instruction does to the cell -/

/-- DECODE leaves the cell, or answers OK with `fresh` raised (R166, R168). -/
theorem afterFrame_cell (i : Instr) (s : State) :
    ((afterFrame i s).record = s.record ∧ (afterFrame i s).fresh = s.fresh) ∨
      ((afterFrame i s).response = Response.ofStatus .ok ∧ (afterFrame i s).fresh = true) := by
  cases i with
  | navPvt P c0 c1 =>
    simp only [afterFrame]
    split
    · exact .inl ⟨rfl, rfl⟩
    · exact .inr ⟨rfl, rfl⟩
  | _ => exact .inl ⟨rfl, rfl⟩

/-- INGEST writes the cell only by a successful decode. -/
theorem execIngest_cell {c : List Byte} {s t : State} (h : execIngest c s = .next t) :
    (t.record = s.record ∧ t.fresh = s.fresh) ∨ (t.response = Response.ofStatus .ok ∧ t.fresh = true) := by
  rcases execIngest_cases c s with ⟨-, he⟩ | ⟨-, -, he⟩ | ⟨-, -, -, he⟩ | ⟨-, -, -, he⟩ <;>
    obtain rfl := Host.Outcome.next.inj (he.symm.trans h)
  · exact .inl ⟨rfl, rfl⟩
  · exact .inl ⟨rfl, rfl⟩
  · exact .inl ⟨by simp, by simp⟩
  · simpa using afterFrame_cell (headInstr (s.append c).resync) (s.append c).resync

/-- An accessor leaves the record, and does not raise `fresh` (R170, R171). -/
theorem exec_accessor_cell {i : Instr} {s t : State} (hi : i = .peekAlways ∨ i = .peekIfNew)
    (h : exec i s = .next t) : t.record = s.record ∧ t.fresh = false := by
  rcases hi with rfl | rfl
  · cases h
    exact ⟨rfl, rfl⟩
  · simp only [exec, execPeekIfNew] at h
    split at h
    · cases h
      exact ⟨rfl, rfl⟩
    · next hfresh =>
      cases h
      exact ⟨rfl, by simpa using hfresh⟩

/-- Everything a step can do to the cell: nothing, a successful decode, a peek, or RESET (R24, R26). -/
theorem step_cell {s t : State} (h : step s = .next t) :
    (t.record = s.record ∧ t.fresh = s.fresh) ∨
    (∃ c rest, s.host = .command ⟨0b001, c⟩ :: rest ∧ t.response = Response.ofStatus .ok ∧ t.fresh = true) ∨
    (∃ r rest, s.host = .command r :: rest ∧ (r.cmd = 0b011 ∨ r.cmd = 0b100) ∧ t.record = s.record ∧
      t.fresh = false) ∨
    (∃ r rest, s.host = .command r :: rest ∧ r.cmd = 0b101 ∧ t.record = Record.zero ∧ t.fresh = false) := by
  rcases step_next_cases h with rfl | ⟨r, rest, i, hh, hd, he⟩
  · exact .inl ⟨rfl, rfl⟩
  rcases decodeCommand_ok_cases hd with ⟨-, rfl⟩ | ⟨-, rfl⟩ | ⟨hc, rfl⟩ | ⟨hc, rfl⟩ | ⟨hc, rfl⟩
  · rcases execIngest_cell he with hsame | hdecoded
    · exact .inl hsame
    · exact .inr (.inl ⟨_, rest, host_of_decodeCommand_ingest hh hd, hdecoded⟩)
  · cases he
    exact .inl ⟨rfl, rfl⟩
  · exact .inr (.inr (.inl ⟨r, rest, hh, .inl hc, exec_accessor_cell (s := { s with host := rest }) (.inl rfl) he⟩))
  · exact .inr (.inr (.inl ⟨r, rest, hh, .inr hc, exec_accessor_cell (s := { s with host := rest }) (.inr rfl) he⟩))
  · cases he
    exact .inr (.inr (.inr ⟨r, rest, hh, hc, rfl, rfl⟩))

/-! ### Stale bytes

States that differ in stale bytes alone are those with equal valid bytes `contents` and equal other fields, so each buffer
primitive keeps the relation by its equation on lists (Laws/Buffer.lean). -/

theorem State.sameButStale_iff {s t : State} :
    s.sameButStale t ↔ s.cfg = t.cfg ∧ s.contents = t.contents ∧ s.record = t.record ∧ s.fresh = t.fresh ∧
      s.host = t.host ∧ s.response = t.response := by
  constructor
  · rintro ⟨hcfg, hfill, hread, hrest⟩
    exact ⟨hcfg, State.contents_congr s t hfill hread, hrest⟩
  · rintro ⟨hcfg, hcont, hrest⟩
    have hfill : s.fill = t.fill := by simpa using congrArg List.length hcont
    refine ⟨hcfg, hfill, fun j hj => ?_, hrest⟩
    rw [← s.contents_getD j hj, ← t.contents_getD j (hfill ▸ hj), hcont]

namespace State.sameButStale

variable {s t : State} (h : s.sameButStale t)

include h

theorem contents_eq : s.contents = t.contents := (State.sameButStale_iff.1 h).2.1

theorem withHost (rest : List HostEvent) :
    State.sameButStale { s with host := rest } { t with host := rest } := by
  obtain ⟨hcfg, hfill, hread, hrec, hfresh, -, hresp⟩ := h
  exact ⟨hcfg, hfill, hread, hrec, hfresh, rfl, hresp⟩

theorem respond (r : Response) : (s.respond r).sameButStale (t.respond r) := by
  obtain ⟨hcfg, hfill, hread, hrec, hfresh, hhost, -⟩ := h
  exact ⟨hcfg, hfill, hread, hrec, hfresh, hhost, rfl⟩

theorem withRecord (r : Record) : State.sameButStale { s with record := r } { t with record := r } := by
  obtain ⟨hcfg, hfill, hread, -, hrest⟩ := h
  exact ⟨hcfg, hfill, hread, rfl, hrest⟩

theorem markFresh : s.markFresh.sameButStale t.markFresh := by
  obtain ⟨hcfg, hfill, hread, hrec, -, hhost, hresp⟩ := h
  exact ⟨hcfg, hfill, hread, hrec, rfl, hhost, hresp⟩

theorem commit (r : Record) : (s.commit r).sameButStale (t.commit r) := (h.withRecord r).markFresh

theorem markConsumed : s.markConsumed.sameButStale t.markConsumed := by
  obtain ⟨hcfg, hfill, hread, hrec, -, hhost, hresp⟩ := h
  exact ⟨hcfg, hfill, hread, hrec, rfl, hhost, hresp⟩

theorem discardAll : s.discardAll.sameButStale t.discardAll := by
  obtain ⟨hcfg, -, -, hrest⟩ := h
  exact ⟨hcfg, rfl, fun j hj => absurd hj (Nat.not_lt_zero j), hrest⟩

theorem append (hs : Memory.wf s.buf = true) (ht : Memory.wf t.buf = true) (c : List Byte) :
    (s.append c).sameButStale (t.append c) := by
  obtain ⟨hcfg, hcont, hrest⟩ := State.sameButStale_iff.1 h
  refine State.sameButStale_iff.2 ⟨hcfg, ?_, hrest⟩
  rw [State.contents_append s c hs, State.contents_append t c ht, hcont]

theorem resync (hs : Memory.wf s.buf = true) (ht : Memory.wf t.buf = true) :
    s.resync.sameButStale t.resync := by
  obtain ⟨hcfg, hcont, hrest⟩ := State.sameButStale_iff.1 h
  refine State.sameButStale_iff.2 ⟨by simpa using hcfg, ?_, by simpa using hrest⟩
  rw [State.contents_resync s hs, State.contents_resync t ht, hcfg, hcont]

theorem removeFront (hs : Memory.wf s.buf = true) (ht : Memory.wf t.buf = true) (k : Nat) :
    (s.removeFront k).sameButStale (t.removeFront k) := by
  obtain ⟨hcfg, hcont, hrest⟩ := State.sameButStale_iff.1 h
  refine State.sameButStale_iff.2 ⟨hcfg, ?_, hrest⟩
  rw [State.contents_removeFront s k hs, State.contents_removeFront t k ht, hcont]

/-- DECODE is given the payload as an operand and reads no byte of the buffer (R130). -/
theorem afterFrame (i : Instr) : (afterFrame i s).sameButStale (afterFrame i t) := by
  cases i with
  | navPvt P c0 c1 =>
    have hcfg : s.cfg = t.cfg := h.1
    simp only [Machine.afterFrame, ← hcfg]
    split
    · exact h.respond _
    · exact (h.commit _).respond _
  | unrecognizedMessage | unrecognizedClass => exact h.respond _
  | ingest | xfail | peekAlways | peekIfNew | reset => exact h

end State.sameButStale

/-! ### The frame at the front is a function of the valid bytes -/

/-- A frame is complete exactly when the wire decoder accepts the valid bytes. -/
theorem State.frameComplete_iff (s : State) :
    s.frameComplete = true ↔ ∃ p, decodeFrame s.cfg s.contents = .ok p := by
  constructor
  · exact fun h => ⟨_, decodeFrame_contents_complete s h⟩
  · rintro ⟨p, hp⟩
    by_contra hn
    obtain ⟨e, he⟩ := decodeFrame_contents_incomplete s (by simpa using hn)
    cases hp.symm.trans he

theorem State.sameButStale.frameComplete_eq {s t : State} (h : s.sameButStale t) :
    s.frameComplete = t.frameComplete := by
  have hcfg : s.cfg = t.cfg := h.1
  rw [Bool.eq_iff_iff, State.frameComplete_iff, State.frameComplete_iff, hcfg, h.contents_eq]

theorem State.sameButStale.head_eq {s t : State} (h : s.sameButStale t) (hs : s.frameComplete = true) :
    headInstr s = headInstr t ∧ s.frameLength = t.frameLength := by
  obtain ⟨hcfg, hfill, -⟩ := id h
  have ht : t.frameComplete = true := h.frameComplete_eq ▸ hs
  have hds := decodeFrame_contents_complete s hs
  rw [hcfg, h.contents_eq, decodeFrame_contents_complete t ht] at hds
  obtain ⟨hhead, hdrop⟩ := Prod.mk.inj (Except.ok.inj hds)
  have hlen := congrArg List.length hdrop
  simp only [List.length_drop, State.length_contents] at hlen
  have hsT := State.frameLength_le_fill hs
  have htT := State.frameLength_le_fill ht
  exact ⟨hhead.symm, by omega⟩

/-! ### No outcome depends on a stale byte -/

theorem outcomesAgree_next {s t : State} (h : s.sameButStale t) : outcomesAgree (.next s) (.next t) :=
  .inl ⟨s, t, rfl, rfl, h⟩

theorem processFrame_agrees {s t : State} (h : s.sameButStale t) (hs : Memory.wf s.buf = true)
    (ht : Memory.wf t.buf = true) : outcomesAgree s.processFrame t.processFrame := by
  have hcomplete := h.frameComplete_eq
  rcases processFrame_cases s with ⟨hsF, hsO⟩ | ⟨hsF, hsO⟩ <;>
    rcases processFrame_cases t with ⟨htF, htO⟩ | ⟨htF, htO⟩ <;>
    rw [hsF, htF] at hcomplete
  · rw [hsO, htO]
    exact outcomesAgree_next (h.respond _)
  · cases hcomplete
  · cases hcomplete
  · obtain ⟨hhead, hlen⟩ := h.head_eq hsF
    rw [hsO, htO, hhead, hlen]
    exact outcomesAgree_next ((h.afterFrame _).removeFront (by simpa using hs) (by simpa using ht) _)

theorem execIngest_agrees {s t : State} (h : s.sameButStale t) (hs : Memory.wf s.buf = true)
    (ht : Memory.wf t.buf = true) (c : List Byte) : outcomesAgree (execIngest c s) (execIngest c t) := by
  obtain ⟨hcfg, hfill, -⟩ := id h
  unfold execIngest
  rw [← hcfg, ← hfill]
  split
  · exact outcomesAgree_next (h.respond _)
  · split
    · exact outcomesAgree_next (h.discardAll.respond _)
    · have hs' := State.wf_append s c hs
      have ht' := State.wf_append t c ht
      exact processFrame_agrees ((h.append hs ht c).resync hs' ht') (State.wf_resync _ hs') (State.wf_resync _ ht')

theorem exec_agrees {s t : State} (h : s.sameButStale t) (hs : Memory.wf s.buf = true)
    (ht : Memory.wf t.buf = true) (i : Instr) : outcomesAgree (exec i s) (exec i t) := by
  obtain ⟨-, -, -, hrec, hfresh, -⟩ := id h
  cases i with
  | ingest c => exact execIngest_agrees h hs ht c
  | xfail => exact outcomesAgree_next (h.respond _)
  | peekAlways =>
    simp only [exec, execPeekAlways, ← hrec]
    exact outcomesAgree_next (h.markConsumed.respond _)
  | peekIfNew =>
    simp only [exec, execPeekIfNew, ← hrec, ← hfresh]
    split
    · exact outcomesAgree_next (h.markConsumed.respond _)
    · exact outcomesAgree_next (h.respond _)
  | reset => exact outcomesAgree_next ((h.discardAll.withRecord Record.zero).markConsumed.respond _)
  | navPvt | unrecognizedMessage | unrecognizedClass =>
    rw [exec_frame _ _ rfl, exec_frame _ _ rfl]
    exact outcomesAgree_next (h.afterFrame _)

end Sys2Proof.Machine

open Sys2Proof Sys2Proof.Machine

/-- Settles O54. -/
theorem invariantHoldsAtReset : Obligations.InvariantHoldsAtReset :=
  fun cfg => ⟨State.resetWith_inv cfg, State.resetWith_inv Config.default⟩

/-- Settles O53: a step waits, or runs one instruction, and every instruction keeps the invariant. -/
theorem stepKeepsTheInvariant : Obligations.StepKeepsTheInvariant := by
  intro s t hs h
  rcases step_next_cases h with rfl | ⟨r, rest, i, -, -, he⟩
  · exact hs
  · exact exec_inv (s := { s with host := rest }) hs he

/-- Settles O57: an instruction other than INGEST leaves the buffer, and one other than INGEST and RESET leaves `fill`. -/
theorem onlyIngestWritesTheBuffer : Obligations.OnlyIngestWritesTheBuffer := by
  intro s t h
  rcases step_next_cases h with rfl | ⟨r, rest, i, hh, hd, he⟩
  · exact ⟨absurd rfl, absurd rfl⟩
  · by_cases hi : ∃ c, i = .ingest c
    · obtain ⟨c, rfl⟩ := hi
      have hhost := host_of_decodeCommand_ingest hh hd
      exact ⟨fun _ => ⟨c, rest, hhost⟩, fun _ => ⟨_, rest, hhost, .inl rfl⟩⟩
    · obtain ⟨hbuf, hfill⟩ := exec_buf_fill (by simpa using hi) he
      refine ⟨absurd hbuf, fun hne => ⟨r, rest, hh, .inr ?_⟩⟩
      obtain ⟨rfl, -⟩ := hfill.resolve_left hne
      simpa using decodeCommand_ok_cases hd

/-- Settles O56, from everything a step can do to the cell. -/
theorem onlyDecodeAndResetWriteTheCell : Obligations.OnlyDecodeAndResetWriteTheCell := by
  intro s t h
  rcases step_cell h with ⟨hrec, hfresh⟩ | ⟨c, rest, hh, hresp, hfresh⟩ | ⟨r, rest, hh, hc, hrec, hfresh⟩ |
    ⟨r, rest, hh, hc, hrec, hfresh⟩
  · exact ⟨absurd hrec, fun h0 h1 => by simp [hfresh, h0] at h1, fun h1 h0 => by simp [hfresh, h1] at h0⟩
  · exact ⟨fun _ => .inl ⟨c, rest, hh, hresp, hfresh⟩, fun _ _ => ⟨c, rest, hh, hresp⟩,
      fun _ h0 => by simp [hfresh] at h0⟩
  · exact ⟨absurd hrec, fun _ h1 => by simp [hfresh] at h1, fun _ _ => ⟨r, rest, hh, hc.imp_right .inl⟩⟩
  · exact ⟨fun _ => .inr ⟨r, rest, hh, hc, hrec⟩, fun _ h1 => by simp [hfresh] at h1,
      fun _ _ => ⟨r, rest, hh, .inr (.inr hc)⟩⟩

/-- Settles O58: both steps fetch alike, and an instruction reads valid bytes alone. -/
theorem staleBytesAreUnobservable : Obligations.StaleBytesAreUnobservable := by
  rintro s s' ⟨hs, -, -⟩ ⟨hs', -, -⟩ h
  obtain ⟨-, -, -, -, -, hhost, -⟩ := id h
  rcases fetch_agrees hhost with ⟨hf, hf'⟩ | ⟨r, hf, hf'⟩ | ⟨i, rest, hf, hf'⟩ <;> simp only [step, hf, hf']
  · exact outcomesAgree_next h
  · exact .inr ⟨r, rfl, rfl⟩
  · exact exec_agrees (h.withHost rest) hs hs' i

end

section
/-! Proofs of the statements of 20_memory.md: the buffer primitives byte by byte (R46), and the two fields that share
payload bytes 72 and 73 (R44). -/

namespace Sys2Proof.Machine

open Sys2Proof

/-! ### The scan of FindFrom -/

theorem Memory.find_eq_none_iff (m : Memory) (b : Byte) (n p : Nat) :
    Memory.find m b p n = none ↔ ∀ q, p ≤ q → q < p + n → Memory.read m q ≠ b := by
  refine ⟨Memory.find_none m b n p, fun h => ?_⟩
  cases hf : Memory.find m b p n with
  | none => rfl
  | some q =>
    obtain ⟨hpq, hqn, hread, -⟩ := Memory.find_some m b n p q hf
    exact absurd hread (h q hpq hqn)

theorem Memory.find_eq_some_iff (m : Memory) (b : Byte) (n p q : Nat) :
    Memory.find m b p n = some q ↔
      p ≤ q ∧ q < p + n ∧ Memory.read m q = b ∧ ∀ r, p ≤ r → r < q → Memory.read m r ≠ b := by
  refine ⟨Memory.find_some m b n p q, fun ⟨hpq, hqn, hread, hfirst⟩ => ?_⟩
  cases hf : Memory.find m b p n with
  | none => exact absurd hread (Memory.find_none m b n p hf q hpq hqn)
  | some q' =>
    obtain ⟨hpq', -, hread', hfirst'⟩ := Memory.find_some m b n p q' hf
    rcases Nat.lt_trichotomy q' q with hlt | rfl | hlt
    · exact absurd hread' (hfirst q' hpq' hlt)
    · rfl
    · exact absurd hread (hfirst' q hpq hlt)

namespace State

variable (s : State) (b : Byte) (start : Nat)

theorem findFrom_eq_none_iff :
    s.findFrom start b = none ↔ ∀ q, start ≤ q → q < s.fill → Memory.read s.buf q ≠ b := by
  rw [findFrom, Memory.find_eq_none_iff]
  exact forall₂_congr fun q hq => by rw [show q < start + (s.fill - start) ↔ q < s.fill by omega]

theorem findFrom_eq_some_iff (p : Nat) :
    s.findFrom start b = some p ↔
      start ≤ p ∧ p < s.fill ∧ Memory.read s.buf p = b ∧ ∀ q, start ≤ q → q < p → Memory.read s.buf q ≠ b := by
  rw [findFrom, Memory.find_eq_some_iff]
  exact and_congr_right fun hp => by rw [show p < start + (s.fill - start) ↔ p < s.fill by omega]

/-! ### The bytes after Append and RemoveFront -/

variable {s}

theorem read_append (c : List Byte) (j : Nat) (hw : Memory.wf s.buf = true) :
    Memory.read (s.append c).buf j =
      if s.fill ≤ j ∧ j < s.fill + c.length then c.getD (j - s.fill) 0 else Memory.read s.buf j := by
  rw [append_buf]
  split
  · next hj =>
    obtain ⟨i, rfl⟩ := Nat.exists_eq_add_of_le hj.1
    rw [Memory.read_writeBytes_inside c s.buf i hw (by omega), Nat.add_sub_cancel_left]
  · next hj => exact Memory.read_writeBytes_outside c s.buf (by omega)

theorem read_removeFront (k j : Nat) (hw : Memory.wf s.buf = true) :
    Memory.read (s.removeFront k).buf j =
      if j < s.fill - k then Memory.read s.buf (k + j) else Memory.read s.buf j := by
  rw [removeFront_buf, Memory.read_moveDown k _ _ _ j hw]
  simp

end State

/-! ### Two readers at one offset -/

/-- R8: at one offset, `le_u16` is `le_u32` modulo 2^16. -/
theorem leU16_toNat_eq_leU32_toNat_mod (B : List Byte) (o : Nat) :
    (leU16 B o).toNat = (leU32 B o).toNat % 2 ^ 16 := by
  rw [leU16_toNat, leU32_toNat]
  have h0 := (byteAt B o).isLt
  have h1 := (byteAt B (o + 1)).isLt
  omega

end Sys2Proof.Machine

open Sys2Proof Sys2Proof.Machine

/-- Settles O15: each primitive, from what its copy or scan over memory gives at every index. -/
theorem bufferPrimitivesMoveTheirBytes : Obligations.BufferPrimitivesMoveTheirBytes := by
  intro s c k start b hw _
  exact ⟨⟨s.append_fill c, fun j => State.read_append c j hw⟩,
    ⟨s.removeFront_fill k, fun j => State.read_removeFront k j hw⟩,
    s.findFrom_eq_some_iff b start, s.findFrom_eq_none_iff b start⟩

/-- Settles O42: with PDOP_OFFSET = 72 both fields are read at offset 72. -/
theorem pdopIsTheLowHalfOfHeadAcc : Obligations.PdopIsTheLowHalfOfHeadAcc := by
  refine ⟨fun cfg P h72 => ?_, by decide⟩
  rw [extractRecord, h72]
  exact leU16_toNat_eq_leU32_toNat_mod P 72

end

section
/-! Proofs of the statements of 30_encoding.md: the codes and statuses (R61, R62, R64), the response's fields (R60), the
frame layout (R65, R67) with its decoder and header rows (R74), and what DECODE does not read (R68, R73). -/

namespace Sys2Proof

open Sys2Proof.Machine

/-! ### The length field -/

/-- R67: two bytes are the length field of the number they spell. -/
theorem lengthBytes_leU16 (l0 l1 : Byte) : lengthBytes (leU16 [l0, l1] 0).toNat = [l0, l1] := by
  have h0 := l0.isLt
  have h1 := l1.isLt
  simp only [leU16_toNat, lengthBytes, byteAt, List.getD_cons_zero, List.getD_cons_succ, List.cons.injEq, and_true]
  exact ⟨BitVec.eq_of_toNat_eq (by simp only [BitVec.toNat_ofNat]; omega),
    BitVec.eq_of_toNat_eq (by simp only [BitVec.toNat_ofNat]; omega)⟩

/-! ### The frame instructions

Every instruction of a frame row is `frameInstr` of the frame's class and id, so that what holds of all three rows is said
of `frameInstr` alone. -/

section Frames

variable (cfg : Config) (cls id c0 c1 : Byte) (P : List Byte)

theorem encode_frameInstr :
    encode cfg (frameInstr cfg cls id P c0 c1) = .frame (frameBytes cfg cls id P c0 c1) := by
  unfold frameInstr
  split
  · next hcls =>
    subst hcls
    split
    · next hid => subst hid; rfl
    · rfl
  · rfl

theorem wf_frameInstr_iff : (frameInstr cfg cls id P c0 c1).wf cfg = true ↔ P.length < 65536 := by
  unfold frameInstr
  split
  · split
    · simp [Instr.wf, payloadFitsLength]
    · next hid => simp [Instr.wf, payloadFitsLength, idIsUnrecognized, hid]
  · next hcls => simp [Instr.wf, payloadFitsLength, classIsUnrecognized, hcls]

variable {cfg} in
theorem exists_eq_frameInstr_of_wf {i : Instr} (hi : i.isCommand = false) (hw : i.wf cfg = true) :
    ∃ cls id P c0 c1, i = frameInstr cfg cls id P c0 c1 := by
  cases i with
  | navPvt P c0 c1 => exact ⟨cfg.pvtClass, cfg.pvtId, P, c0, c1, by simp [frameInstr]⟩
  | unrecognizedMessage id P c0 c1 =>
    have hid : id ≠ cfg.pvtId := by simpa [idIsUnrecognized] using (Bool.and_eq_true_iff.1 hw).1
    exact ⟨cfg.pvtClass, id, P, c0, c1, by simp [frameInstr, hid]⟩
  | unrecognizedClass cls id P c0 c1 =>
    have hcls : cls ≠ cfg.pvtClass := by simpa [classIsUnrecognized] using (Bool.and_eq_true_iff.1 hw).1
    exact ⟨cls, id, P, c0, c1, by simp [frameInstr, hcls]⟩
  | ingest | xfail | peekAlways | peekIfNew | reset => cases hi

/-! ### Frames, encoded and decoded -/

/-- R65, R67: the decoder reads a frame back, and leaves what follows it. -/
theorem decodeFrame_frameBytes (rest : List Byte) (hP : P.length < 65536) :
    decodeFrame cfg (frameBytes cfg cls id P c0 c1 ++ rest) = .ok (frameInstr cfg cls id P c0 c1, rest) := by
  have hL := leU16_lengthBytes P.length hP
  simp only [lengthBytes] at hL
  simp [frameBytes, lengthBytes, decodeFrame, decodeBody, hL]

theorem decodeFrame_frameBytes_self (hP : P.length < 65536) :
    decodeFrame cfg (frameBytes cfg cls id P c0 c1) = .ok (frameInstr cfg cls id P c0 c1, []) := by
  simpa using decodeFrame_frameBytes cfg cls id c0 c1 P [] hP

variable {cfg} in
/-- R75: what the decoder accepts is a frame with a payload that fits its length field, and the bytes after it. -/
theorem frameBytes_of_decodeFrame {bytes rest : List Byte} {i : Instr}
    (h : decodeFrame cfg bytes = .ok (i, rest)) :
    ∃ cls id P c0 c1, P.length < 65536 ∧ i = frameInstr cfg cls id P c0 c1 ∧
      bytes = frameBytes cfg cls id P c0 c1 ++ rest := by
  obtain ⟨cls, id, l0, l1, P, c0, c1, rfl, hlen, rfl⟩ := decodeFrame_ok cfg bytes i rest h
  refine ⟨cls, id, P, c0, c1, hlen ▸ (leU16 [l0, l1] 0).isLt, rfl, ?_⟩
  simp [frameBytes, hlen, lengthBytes_leU16]

end Frames

/-! ### Commands -/

/-- R61, R67: a request decodes to the command whose encoding it is. -/
theorem decode_encode_command {cfg : Config} {i : Instr} (hi : i.isCommand = true) :
    decode cfg (encode cfg i) = .ok i ∧ ∀ bytes, encode cfg i ≠ .frame bytes := by
  cases i with
  | ingest | xfail | peekAlways | peekIfNew | reset => exact ⟨rfl, fun _ h => by cases h⟩
  | navPvt | unrecognizedMessage | unrecognizedClass => cases hi

/-- R62: the codes the decoder rejects are the three reserved ones. -/
theorem decodeCommand_eq_error_iff (cmd : BitVec 3) (chunk : List Byte) :
    (∃ e, decodeCommand cmd chunk = .error e) ↔ cmd = 0b000 ∨ cmd = 0b110 ∨ cmd = 0b111 := by
  constructor
  · rintro ⟨e, h⟩
    unfold decodeCommand at h
    repeat' split at h
    all_goals cases h
    bv_omega
  · rintro (rfl | rfl | rfl) <;> exact ⟨_, rfl⟩

/-! ### Header words -/

section HeaderWords

variable (b0 b1 b2 b3 m0 m1 m2 m3 : Byte)

theorem toNat_append_byte {n : Nat} (x : BitVec n) (b : Byte) : (x ++ b).toNat = x.toNat * 2 ^ 8 + b.toNat := by
  rw [BitVec.toNat_append, ← Nat.shiftLeft_add_eq_or_of_lt b.isLt, Nat.shiftLeft_eq]

theorem headerWord_toNat :
    (headerWord b0 b1 b2 b3).toNat =
      b0.toNat + 2 ^ 8 * b1.toNat + 2 ^ 16 * b2.toNat + 2 ^ 24 * b3.toNat := by
  simp only [headerWord, toNat_append_byte]
  omega

/-- R74: the header word is `le_u32` of the frame's first four bytes. -/
theorem headerWord_eq_leU32 : headerWord b0 b1 b2 b3 = leU32 [b0, b1, b2, b3] 0 :=
  BitVec.eq_of_toNat_eq ((headerWord_toNat b0 b1 b2 b3).trans (leU32_toNat [b0, b1, b2, b3] 0).symm)

theorem headerWord_inj :
    headerWord b0 b1 b2 b3 = headerWord m0 m1 m2 m3 ↔ b0 = m0 ∧ b1 = m1 ∧ b2 = m2 ∧ b3 = m3 := by
  rw [← BitVec.toNat_inj, headerWord_toNat, headerWord_toNat]
  simp only [← BitVec.toNat_inj]
  omega

/-- A mask applies to each header byte apart. -/
theorem headerWord_and :
    headerWord b0 b1 b2 b3 &&& headerWord m0 m1 m2 m3 =
      headerWord (b0 &&& m0) (b1 &&& m1) (b2 &&& m2) (b3 &&& m3) := by
  simp only [headerWord, ← BitVec.and_append]

/-- NAV_PVT's mask keeps all four bytes. -/
theorem headerWord_and_pvtMask : headerWord b0 b1 b2 b3 &&& 0xFFFFFFFF = headerWord b0 b1 b2 b3 :=
  BitVec.and_allOnes

/-- UNRECOGNIZED_MESSAGE's mask drops the id. -/
theorem headerWord_and_messageMask : headerWord b0 b1 b2 b3 &&& 0x00FFFFFF = headerWord b0 b1 b2 0 := by
  rw [show (0x00FFFFFF : BitVec 32) = headerWord 0xFF 0xFF 0xFF 0 from rfl, headerWord_and, headerWord_inj]
  exact ⟨BitVec.and_allOnes, BitVec.and_allOnes, BitVec.and_allOnes, BitVec.and_zero⟩

/-- UNRECOGNIZED_CLASS's mask drops the class and the id. -/
theorem headerWord_and_classMask : headerWord b0 b1 b2 b3 &&& 0x0000FFFF = headerWord b0 b1 0 0 := by
  rw [show (0x0000FFFF : BitVec 32) = headerWord 0xFF 0xFF 0 0 from rfl, headerWord_and, headerWord_inj]
  exact ⟨BitVec.and_allOnes, BitVec.and_allOnes, BitVec.and_zero, BitVec.and_zero⟩

end HeaderWords

/-- The table's name of a frame instruction's row. -/
def frameMnemonic : Instr → String
  | .navPvt _ _ _ => "NAV_PVT"
  | .unrecognizedMessage _ _ _ _ => "UNRECOGNIZED_MESSAGE"
  | .unrecognizedClass _ _ _ _ _ => "UNRECOGNIZED_CLASS"
  | _ => ""

/-- R74: a header without the marker matches no row. -/
theorem frameRowOf_of_not_marker {cfg : Config} {b0 b1 : Byte} (cls id : Byte)
    (hm : ¬ (b0 = cfg.sync1 ∧ b1 = cfg.sync2)) : frameRowOf cfg (headerWord b0 b1 cls id) = none := by
  simp only [frameRowOf, frameRows, List.find?_eq_none, List.mem_cons, List.not_mem_nil, or_false, beq_iff_eq,
    forall_eq_or_imp, forall_eq, headerWord_and_pvtMask, headerWord_and_messageMask, headerWord_and_classMask,
    headerWord_inj]
  tauto

/-- R74, R69: behind the marker the first row that matches is the one the class and id tests choose. -/
theorem frameRowOf_of_marker (cfg : Config) (cls id c0 c1 : Byte) (P : List Byte) :
    (frameRowOf cfg (headerWord cfg.sync1 cfg.sync2 cls id)).map FrameRow.mnemonic =
      some (frameMnemonic (frameInstr cfg cls id P c0 c1)) := by
  simp only [frameRowOf, frameRows, List.find?_cons, headerWord_and_pvtMask, headerWord_and_messageMask,
    headerWord_and_classMask, beq_eq_decide, headerWord_inj, frameInstr]
  by_cases hcls : cls = cfg.pvtClass
  · by_cases hid : id = cfg.pvtId <;> simp [hcls, hid, frameMnemonic]
  · simp [hcls, frameMnemonic]

/-! ### The bytes of a frame, by region -/

section Regions

variable (cfg : Config) (cls id c0 c1 : Byte) (P : List Byte)

/-- Behind the six header bytes stand the payload and the trailer. -/
theorem frameBytes_getD_add_six (k : Nat) :
    (frameBytes cfg cls id P c0 c1).getD (k + 6) 0 = (P ++ [c0, c1]).getD k 0 := by
  simp [frameBytes, lengthBytes]

theorem frameBytes_getD_payload {k : Nat} (hk : k < P.length) :
    (frameBytes cfg cls id P c0 c1).getD (k + 6) 0 = P.getD k 0 := by
  rw [frameBytes_getD_add_six, List.getD_append _ _ _ _ hk]

theorem frameBytes_getD_trailer {k : Nat} (hk : k < 2) :
    (frameBytes cfg cls id P c0 c1).getD (P.length + k + 6) 0 = if k = 0 then c0 else c1 := by
  rw [frameBytes_getD_add_six, List.getD_append_right _ _ _ _ (by omega), Nat.add_sub_cancel_left]
  match k, hk with
  | 0, _ | 1, _ => rfl

theorem frameBytes_getD_length {j : Nat} (hP : P.length < 65536) (h4 : 4 ≤ j) (h6 : j < 6) :
    ((frameBytes cfg cls id P c0 c1).getD j 0).toNat = if j = 4 then P.length % 256 else P.length / 256 := by
  match j, h4, h6 with
  | 4, _, _ | 5, _, _ => exact (BitVec.toNat_ofNat _ 8).trans (Nat.mod_eq_of_lt (by omega))

/-- R42: from index 6 on stand the payload, then the two trailer bytes, then what follows the frame. -/
theorem regionOf_add_six (L k : Nat) :
    regionOf L (k + 6) = if k < L then .payload else if k < L + 2 then .trailer else .afterFrame := by
  simp only [regionOf, if_neg (show ¬ k + 6 < 2 by omega), if_neg (show ¬ k + 6 = 2 by omega),
    if_neg (show ¬ k + 6 = 3 by omega), if_neg (show ¬ k + 6 < 6 by omega), Nat.add_comm 6 L,
    show 8 + L = L + 2 + 6 by omega, Nat.add_lt_add_iff_right]

end Regions

end Sys2Proof

namespace Sys2Proof.Machine

open Sys2Proof

/-! ### Statuses -/

/-- R64 read backwards: the status a code names, if it names one. -/
def statusOfCode (code : BitVec 3) : Option Status :=
  [Status.ok, .bufOverflow, .unrecognizedClass, .unrecognizedMessage, .transportFailure, .shortPayload][code.toNat]?

theorem statusOfCode_code (st : Status) : statusOfCode st.code = some st := by
  cases st <;> rfl

/-! ### What an instruction answers -/

/-- R181: no instruction faults or is refused. -/
theorem exec_completes (i : Instr) (s : State) : ∃ t, exec i s = .next t := by
  cases i with
  | ingest c =>
    rcases execIngest_cases c s with ⟨-, he⟩ | ⟨-, -, he⟩ | ⟨-, -, -, he⟩ | ⟨-, -, -, he⟩ <;> exact ⟨_, he⟩
  | peekIfNew =>
    simp only [exec, execPeekIfNew]
    split <;> exact ⟨_, rfl⟩
  | xfail | peekAlways | reset => exact ⟨_, rfl⟩
  | navPvt | unrecognizedMessage | unrecognizedClass => exact ⟨_, exec_frame _ _ rfl⟩

/-- DECODE answers a status alone (R60). -/
theorem afterFrame_response {i : Instr} (hi : i.isCommand = false) (s : State) :
    ∃ st, (afterFrame i s).response = Response.ofStatus st := by
  cases i with
  | navPvt P c0 c1 =>
    simp only [afterFrame]
    split <;> exact ⟨_, rfl⟩
  | unrecognizedMessage | unrecognizedClass => exact ⟨_, rfl⟩
  | ingest | xfail | peekAlways | peekIfNew | reset => cases hi

/-- INGEST answers a status alone: its own, or the one of the frame it decoded (R60). -/
theorem execIngest_response {c : List Byte} {s t : State} (h : execIngest c s = .next t) :
    ∃ st, t.response = Response.ofStatus st := by
  rcases execIngest_cases c s with ⟨-, he⟩ | ⟨-, -, he⟩ | ⟨-, -, -, he⟩ | ⟨-, -, -, he⟩ <;>
    obtain rfl := Host.Outcome.next.inj (he.symm.trans h)
  · exact ⟨_, rfl⟩
  · exact ⟨_, rfl⟩
  · exact ⟨_, rfl⟩
  · exact afterFrame_response (frameInstr_isCommand _ _ _ _ _ _) _

theorem fields_of_ofStatus {r : Response} (h : ∃ st, r = Response.ofStatus st) :
    (∃ st, r.status = some st) ∧ r.hasNew = none ∧ r.recOut = none := by
  obtain ⟨st, rfl⟩ := h
  exact ⟨⟨st, rfl⟩, rfl, rfl⟩

/-! ### What DECODE reads -/

/-- DECODE reads the parameters and the cell, nothing else of the state (R130). -/
theorem afterFrame_sameAnswer {i : Instr} (hi : i.isCommand = false) {s t : State} (hcfg : s.cfg = t.cfg)
    (hrec : s.record = t.record) (hfresh : s.fresh = t.fresh) : (afterFrame i s).sameAnswer (afterFrame i t) := by
  cases i with
  | navPvt P c0 c1 =>
    simp only [afterFrame, ← hcfg]
    split
    · exact ⟨hrec, hfresh, rfl⟩
    · exact ⟨rfl, rfl, rfl⟩
  | unrecognizedMessage | unrecognizedClass => exact ⟨hrec, hfresh, rfl⟩
  | ingest | xfail | peekAlways | peekIfNew | reset => cases hi

theorem sameAnswer_trans {s t u : State} (hst : s.sameAnswer t) (htu : t.sameAnswer u) : s.sameAnswer u := by
  obtain ⟨hrec, hfresh, hresp⟩ := hst
  obtain ⟨hrec', hfresh', hresp'⟩ := htu
  exact ⟨hrec.trans hrec', hfresh.trans hfresh', hresp.trans hresp'⟩

/-- R68: DECODE does not read the trailer. -/
theorem afterFrame_frameInstr_trailer (cfg : Config) (cls id c0 c1 d0 d1 : Byte) (P : List Byte) (s : State) :
    afterFrame (frameInstr cfg cls id P c0 c1) s = afterFrame (frameInstr cfg cls id P d0 d1) s := by
  unfold frameInstr
  split
  · split <;> rfl
  · rfl

/-- R70: every field lies below PVT_MIN_LEN, so payloads that agree there give one record. -/
theorem extractRecord_congr {cfg : Config} {P Q : List Byte}
    (h : ∀ o, o < cfg.pvtMinLen → byteAt P o = byteAt Q o) : extractRecord cfg P = extractRecord cfg Q := by
  have h76 : 76 ≤ cfg.pvtMinLen := Nat.le_max_left _ _
  have hpdop : cfg.pdopOffset + 2 ≤ cfg.pvtMinLen := Nat.le_max_right _ _
  simp (disch := omega) only [extractRecord, leU8, leU16, leU32, leI32, h]

theorem byteAt_take {P : List Byte} {n o : Nat} (ho : o < n) : byteAt (P.take n) o = byteAt P o := by
  simp [byteAt, List.getD_eq_getElem?_getD, ho]

theorem exec_navPvt_long {P : List Byte} (c0 c1 : Byte) {s : State} (hP : s.cfg.pvtMinLen ≤ P.length) :
    exec (.navPvt P c0 c1) s = .next ((s.commit (extractRecord s.cfg P)).returnStatus .ok) :=
  if_neg (by omega)

/-- R132: a payload below PVT_MIN_LEN is reported. -/
theorem exec_navPvt_short {P : List Byte} (c0 c1 : Byte) {s : State} (hP : P.length < s.cfg.pvtMinLen) :
    exec (.navPvt P c0 c1) s = .next (s.raise .shortPayload) :=
  if_pos hP

/-! ### A frame delivered whole -/

theorem frameBytes_ne_nil (cfg : Config) (cls id c0 c1 : Byte) (P : List Byte) : frameBytes cfg cls id P c0 c1 ≠ [] :=
  fun h => by cases h

/-- A frame that begins the buffer is what the resync leaves there. -/
theorem contents_resync_append_frameBytes {s : State} (hw : Memory.wf s.buf = true) (h0 : s.fill = 0)
    (cls id c0 c1 : Byte) (P : List Byte) :
    (s.append (frameBytes s.cfg cls id P c0 c1)).resync.contents = frameBytes s.cfg cls id P c0 c1 := by
  have hnil : s.contents = [] := List.eq_nil_of_length_eq_zero (by rw [s.length_contents, h0])
  rw [State.contents_resync _ (s.wf_append _ hw), State.contents_append s _ hw, hnil, List.nil_append]
  exact resyncList_of_stop _ _ (.inl (by simp [frameBytes, framedList]))

/-- R108, R115: a frame that fits, delivered to an empty buffer, runs its row and is removed. -/
theorem exec_ingest_frameBytes {s : State} (hw : Memory.wf s.buf = true) (h0 : s.fill = 0) (cls id c0 c1 : Byte)
    (P : List Byte) (hP : P.length < 65536) (hfit : P.length + 8 ≤ s.cfg.bufCap) :
    ∃ t, exec (.ingest (frameBytes s.cfg cls id P c0 c1)) s = .next t ∧
      t.sameAnswer (afterFrame (frameInstr s.cfg cls id P c0 c1) s) ∧ t.fill = 0 := by
  have hlen := Laws.EncodedForm.length_frameBytes s.cfg cls id c0 c1 P
  have hcont := contents_resync_append_frameBytes hw h0 cls id c0 c1 P
  have hd := decodeFrame_frameBytes_self s.cfg cls id c0 c1 P hP
  generalize hf : frameBytes s.cfg cls id P c0 c1 = f at hlen hcont hd
  have hcfg : (s.append f).resync.cfg = s.cfg := by simp
  rw [← hcont, ← hcfg] at hd
  rcases execIngest_cases f s with ⟨hc, -⟩ | ⟨-, hover, -⟩ | ⟨-, -, hT, -⟩ | ⟨-, -, hT, he⟩
  · exact absurd (hf.trans hc) (frameBytes_ne_nil _ _ _ _ _ _)
  · omega
  · rw [(State.frameComplete_iff _).2 ⟨_, hd⟩] at hT
    cases hT
  · rw [decodeFrame_contents_complete _ hT] at hd
    obtain ⟨hhead, hdrop⟩ := Prod.mk.inj (Except.ok.inj hd)
    rw [hcfg] at hhead
    refine ⟨_, he, ?_, ?_⟩
    · rw [hhead]
      exact afterFrame_sameAnswer (frameInstr_isCommand _ _ _ _ _ _) (by simp) (by simp) (by simp)
    · have hrest := congrArg List.length hdrop
      simpa using hrest

/-! ### A placed table word -/

theorem length_bytesOfNat (n w : Nat) : (bytesOfNat n w).length = n := by
  induction n generalizing w with
  | zero => rfl
  | succ n ih => exact congrArg (· + 1) (ih _)

theorem decodeTableWord_eq_some_iff {nbits w : Nat} {i : Instr} :
    decodeTableWord nbits w = some i ↔ decode Config.default (encodedOfTableWord nbits w) = .ok i := by
  unfold decodeTableWord
  split <;> simp [*]

/-- A frame row's word is the eight bytes of a frame without payload (log 8). -/
theorem encodedOfTableWord_frame {w : Nat} {i : Instr} (h : decodeTableWord 32 w = some i) :
    ∃ cls id c0 c1, encodedOfTableWord 32 w = .frame (frameBytes Config.default cls id [] c0 c1) ∧
      i = frameInstr Config.default cls id [] c0 c1 := by
  rw [decodeTableWord_eq_some_iff, show encodedOfTableWord 32 w = .frame (bytesOfNat 8 (w % 2 ^ 32)) from rfl] at h
  simp only [decode] at h
  split at h
  · next j rest hd =>
    cases h
    obtain ⟨cls, id, P, c0, c1, -, rfl, hbytes⟩ := frameBytes_of_decodeFrame hd
    have hlen := congrArg List.length hbytes
    rw [length_bytesOfNat, List.length_append, Laws.EncodedForm.length_frameBytes] at hlen
    obtain rfl : P = [] := List.eq_nil_of_length_eq_zero (by omega)
    obtain rfl : rest = [] := List.eq_nil_of_length_eq_zero (by omega)
    exact ⟨cls, id, c0, c1, by rw [← List.append_nil (frameBytes _ _ _ _ _ _), ← hbytes]; rfl, rfl⟩
  · cases h

theorem step_placeEncoded_request {s : State} {cmd : BitVec 3} {chunk : List Byte} {i : Instr}
    (hd : decodeCommand cmd chunk = .ok i) : step (placeEncoded s (.request cmd chunk)) = exec i s :=
  stepRunsDecodedCommand _ ⟨cmd, chunk⟩ s.host i rfl hd

theorem step_placeEncoded_frame (s : State) (bytes : List Byte) :
    step (placeEncoded s (.frame bytes)) = exec (.ingest bytes) { s with fill := 0 } :=
  stepRunsDecodedCommand _ ⟨0b001, bytes⟩ s.host _ rfl rfl

end Sys2Proof.Machine

open Sys2Proof Sys2Proof.Machine

/-- Settles O12: a command by its code, and a frame because the decoder reads its layout back. -/
theorem decodeOfEncodeIsTheInstruction : Obligations.DecodeOfEncodeIsTheInstruction := by
  intro cfg i hw
  cases hi : i.isCommand with
  | true =>
    obtain ⟨hd, hne⟩ := decode_encode_command (cfg := cfg) hi
    exact ⟨hd, fun bytes _ he => absurd he (hne bytes)⟩
  | false =>
    obtain ⟨cls, id, P, c0, c1, rfl⟩ := exists_eq_frameInstr_of_wf hi hw
    have hP := (wf_frameInstr_iff cfg cls id c0 c1 P).1 hw
    rw [encode_frameInstr]
    refine ⟨?_, ?_⟩
    · simp only [decode, decodeFrame_frameBytes_self cfg cls id c0 c1 P hP]
    · rintro bytes rest ⟨⟩
      exact decodeFrame_frameBytes cfg cls id c0 c1 P rest hP

/-- Settles O13: the bytes of an accepted frame are its layout, and an accepted code is R61's. -/
theorem decoderAcceptsOnlyEncodings : Obligations.DecoderAcceptsOnlyEncodings := by
  refine ⟨fun cfg bytes rest i h => ?_, fun cfg cmd chunk i h => ⟨decodeCommand_isCommand cmd chunk i h, ?_⟩⟩
  · obtain ⟨cls, id, P, c0, c1, hP, rfl, hbytes⟩ := frameBytes_of_decodeFrame h
    exact ⟨(wf_frameInstr_iff cfg cls id c0 c1 P).2 hP, frameInstr_isCommand cfg cls id P c0 c1, _,
      encode_frameInstr cfg cls id c0 c1 P, hbytes⟩
  · rcases decodeCommand_ok_cases h with ⟨rfl, rfl⟩ | ⟨rfl, rfl⟩ | ⟨rfl, rfl⟩ | ⟨rfl, rfl⟩ | ⟨rfl, rfl⟩
    · exact ⟨chunk, rfl, fun _ => rfl⟩
    all_goals exact ⟨[], rfl, fun hcmd => absurd hcmd (by decide)⟩

/-- Settles O6: a command is fetched as placed; a frame word is a frame that fits, delivered to an empty buffer. -/
theorem placedTableWordIsRunNext : Obligations.PlacedTableWordIsRunNext := by
  refine fun s w i => ⟨fun nbits hn h => ?_, fun hcfg hw h => ?_⟩
  · have he : encodedOfTableWord nbits w = .request (BitVec.ofNat 3 w) [] := if_pos hn
    rw [decodeTableWord_eq_some_iff, he] at h
    rw [State.withFetchWord, he]
    exact step_placeEncoded_request h
  · obtain ⟨cls, id, c0, c1, he, rfl⟩ := encodedOfTableWord_frame h
    rw [State.withFetchWord, he, step_placeEncoded_frame, ← hcfg]
    have hi := frameInstr_isCommand s.cfg cls id [] c0 c1
    obtain ⟨t, ht, hsame, hfill⟩ := exec_ingest_frameBytes (s := { s with fill := 0 }) hw rfl cls id c0 c1 []
      (by decide) (by simp [hcfg, Config.default])
    exact ⟨t, _, ht, exec_frame _ s hi, sameAnswer_trans hsame (afterFrame_sameAnswer hi rfl rfl rfl), hfill,
      (exec_cfg_host ht).2⟩

/-- Settles O8, from the response each instruction's meaning gives. -/
theorem responseFieldsAreTheCommands : Obligations.ResponseFieldsAreTheCommands := by
  intro i s t h
  cases i with
  | ingest c => exact fields_of_ofStatus (execIngest_response h)
  | peekIfNew =>
    simp only [exec, execPeekIfNew] at h
    split at h
    · next hfresh =>
      cases h
      simp [hfresh, Response.ofNew]
    · next hfresh =>
      cases h
      simp [hfresh, Response.ofNothingNew]
  | xfail =>
    cases h
    exact fields_of_ofStatus ⟨_, rfl⟩
  | peekAlways =>
    cases h
    exact ⟨rfl, rfl, rfl⟩
  | reset =>
    cases h
    rfl
  | navPvt | unrecognizedMessage | unrecognizedClass =>
    rw [exec_frame _ _ rfl] at h
    cases h
    exact fields_of_ofStatus (afterFrame_response rfl s)

/-- Settles O11: each row's mask keeps the header bytes the row tests. -/
theorem headerRowsInOrderAgreeWithDispatch : Obligations.HeaderRowsInOrderAgreeWithDispatch := by
  refine ⟨headerWord_eq_leU32, fun cfg b0 b1 cls id c0 c1 P => ?_, by decide⟩
  split
  · next hm =>
    rw [hm.1, hm.2, frameRowOf_of_marker cfg cls id c0 c1 P]
    rfl
  · next hm => rw [frameRowOf_of_not_marker cls id hm, Option.map_none]

/-- Settles O14: the header byte by byte, then payload and trailer behind it. -/
theorem frameBytesByRegion : Obligations.FrameBytesByRegion := by
  intro cfg cls id c0 c1 P hP
  refine ⟨Laws.EncodedForm.length_frameBytes cfg cls id c0 c1 P, fun j hj => ?_⟩
  match j with
  | 0 | 1 | 2 | 3 => rfl
  | 4 | 5 => exact frameBytes_getD_length cfg cls id c0 c1 P hP (by omega) (by omega)
  | k + 6 =>
    rw [regionOf_add_six]
    by_cases hk : k < P.length
    · rw [if_pos hk]
      exact frameBytes_getD_payload cfg cls id c0 c1 P hk
    · obtain ⟨d, rfl⟩ := Nat.exists_eq_add_of_le (Nat.le_of_not_lt hk)
      rw [if_neg hk, if_pos (by omega)]
      simpa using frameBytes_getD_trailer cfg cls id c0 c1 P (k := d) (by omega)

/-- Settles O43: both frames run one row with one answer, and leave an empty buffer. -/
theorem trailerIsNeverRead : Obligations.TrailerIsNeverRead := by
  rintro s cls id c0 c1 P ⟨hw, -, -⟩ h0 hP hfit
  obtain ⟨t, ht, hsame, hfill⟩ := exec_ingest_frameBytes hw h0 cls id c0 c1 P hP hfit
  obtain ⟨t', ht', hsame', hfill'⟩ := exec_ingest_frameBytes hw h0 cls id 0 0 P hP hfit
  rw [afterFrame_frameInstr_trailer s.cfg cls id c0 c1 0 0 P s] at hsame
  obtain ⟨hrec, hfresh, hresp⟩ := hsame
  obtain ⟨hrec', hfresh', hresp'⟩ := hsame'
  obtain ⟨hcfg, hhost⟩ := exec_cfg_host ht
  obtain ⟨hcfg', hhost'⟩ := exec_cfg_host ht'
  have hsame : t.sameButStale t' :=
    ⟨hcfg.trans hcfg'.symm, hfill.trans hfill'.symm, fun j hj => by omega, hrec.trans hrec'.symm,
      hfresh.trans hfresh'.symm, hhost.trans hhost'.symm, hresp.trans hresp'.symm⟩
  exact ⟨.inl ⟨t, t', ht, ht', hsame⟩, t, ht, hfill⟩

/-- Settles O44: a payload is compared with PVT_MIN_LEN, and its fields lie below it. -/
theorem payloadBeyondTheMinimumIsIgnored : Obligations.PayloadBeyondTheMinimumIsIgnored := by
  refine fun s P c0 c1 => ⟨rfl, rfl, rfl, fun hP => ⟨_, exec_navPvt_long c0 c1 hP, ?_, rfl⟩,
    fun hP => ⟨_, exec_navPvt_short c0 c1 hP, rfl⟩⟩
  have htake : extractRecord s.cfg (P.take s.cfg.pvtMinLen) = extractRecord s.cfg P :=
    extractRecord_congr fun o ho => byteAt_take ho
  rw [exec_navPvt_long c0 c1 (by simp [hP]), htake]

/-- Settles O1, by the decoder's and the encoder's tables. -/
theorem commandCodesSelectOneCommandEach : Obligations.CommandCodesSelectOneCommandEach := by
  refine fun cfg chunk => ⟨rfl, rfl, rfl, rfl, rfl, ?_, rfl, rfl, rfl, rfl, rfl⟩
  rintro cmd (rfl | rfl | rfl) <;> rfl

/-- Settles O2: the fetch refuses a code the decoder rejects, and a command it accepts completes. -/
theorem reservedCodesAreRefused : Obligations.ReservedCodesAreRefused := by
  intro s r rest hh
  rw [← decodeCommand_eq_error_iff r.cmd r.chunk]
  cases hd : decodeCommand r.cmd r.chunk with
  | error e => simp [step, fetch, hh, hd]
  | ok i =>
    obtain ⟨t, ht⟩ := exec_completes i { s with host := rest }
    rw [stepRunsDecodedCommand s r rest i hh hd, ht]
    simp

/-- Settles O7, by running the decoder on each word. -/
theorem sampleWordsDecodeToTheirRows : Obligations.SampleWordsDecodeToTheirRows := by
  unfold Obligations.SampleWordsDecodeToTheirRows
  decide

/-- Settles O9: the codes are the places of R64's table, where each status is read back. -/
theorem statusCodesAreZeroToFive : Obligations.StatusCodesAreZeroToFive := by
  refine ⟨rfl, rfl, rfl, rfl, rfl, rfl, fun st => ⟨fun h => ?_, fun h => ?_⟩, fun st st' h => ?_⟩
  · cases h ▸ statusOfCode_code st
  · cases h ▸ statusOfCode_code st
  · exact Option.some.inj (by rw [← statusOfCode_code st, h, statusOfCode_code st'])

end

section
/-! Proofs of the statements of 40_assembler.md: the resync (R104, R105), INGEST step by step (R101 to R103, R106 to R110)
and against the byte-list machine (R100), the properties of whole deliveries (R112 to R117), and XFAIL (R111). -/

namespace Sys2Proof.Machine

open Sys2Proof

/-! ### The start marker on a list -/

section Lists

variable {cfg : Config} {l : List Byte}

theorem framedList_eq_true_iff :
    framedList cfg l = true ↔ ∃ rest, l = cfg.sync1 :: cfg.sync2 :: rest := by
  match l with
  | [] | [_] => simp [framedList]
  | x :: y :: rest => simp [framedList]

/-- The first two bytes decide. -/
theorem framedList_append (c : List Byte) (h : 2 ≤ l.length) : framedList cfg (l ++ c) = framedList cfg l := by
  match l, h with
  | _ :: _ :: _, _ => rfl

theorem two_le_length_of_framedList (h : framedList cfg l = true) : 2 ≤ l.length := by
  obtain ⟨rest, rfl⟩ := framedList_eq_true_iff.1 h
  simp

theorem hasMarker_cons (x : Byte) : hasMarker cfg (x :: l) = (framedList cfg (x :: l) || hasMarker cfg l) := by
  cases l <;> rfl

/-! ### The resync on a list (R104) -/

/-- A head that is not the marker is dropped when a SYNC1 stands behind it. -/
theorem resyncList_cons {x : Byte} (hf : framedList cfg (x :: l) = false) (hs : cfg.sync1 ∈ l) :
    resyncList cfg (x :: l) = resyncList cfg l := by
  cases l with
  | nil => cases hs
  | cons y rest => rw [resyncList, if_neg (by simpa [framedList] using hf), if_pos hs]

/-- The resync stops at once, or drops the head. -/
theorem resyncList_cons_cases (cfg : Config) (x : Byte) (l : List Byte) :
    resyncList cfg (x :: l) = x :: l ∨
      (framedList cfg (x :: l) = false ∧ cfg.sync1 ∈ l ∧ resyncList cfg (x :: l) = resyncList cfg l) := by
  by_cases hf : framedList cfg (x :: l) = true
  · exact .inl (resyncList_of_stop cfg _ (.inl hf))
  · by_cases hs : cfg.sync1 ∈ l
    · exact .inr ⟨by simpa using hf, hs, resyncList_cons (by simpa using hf) hs⟩
    · exact .inl (resyncList_of_stop cfg _ (.inr hs))

/-- Resyncing before more bytes arrive does not change where the resync ends. -/
theorem resyncList_append (cfg : Config) (l c : List Byte) :
    resyncList cfg (resyncList cfg l ++ c) = resyncList cfg (l ++ c) := by
  induction l with
  | nil => rfl
  | cons x l ih =>
    rcases resyncList_cons_cases cfg x l with he | ⟨hf, hs, he⟩
    · rw [he]
    · have hlen : 2 ≤ (x :: l).length := Nat.succ_le_succ (List.length_pos_of_mem hs)
      have hf' : framedList cfg (x :: (l ++ c)) = false := (framedList_append c hlen).trans hf
      rw [he, ih, List.cons_append, resyncList_cons hf' (List.mem_append_left c hs)]

/-- The resync drops a front at no index of which the marker begins (D8, D9), and stops at a SYNC1 (R104). -/
theorem resyncList_drops (cfg : Config) (l : List Byte) :
    ∃ dropped, l = dropped ++ resyncList cfg l ∧
      (∀ n, n < dropped.length → framedList cfg (l.drop n) = false) ∧
      (dropped ≠ [] → (resyncList cfg l).head? = some cfg.sync1) := by
  induction l with
  | nil => exact ⟨[], rfl, by simp, by simp⟩
  | cons x l ih =>
    rcases resyncList_cons_cases cfg x l with he | ⟨hf, hs, he⟩
    · exact ⟨[], he.symm, by simp, by simp⟩
    · obtain ⟨dropped, hl, hno, hhead⟩ := ih
      refine ⟨x :: dropped, by rw [he, List.cons_append, ← hl], fun n hn => ?_, fun _ => ?_⟩
      · cases n with
        | zero => exact hf
        | succ n => exact hno n (by simpa using hn)
      · rw [he]
        by_cases hd : dropped = []
        · obtain ⟨y, rest, rfl⟩ := List.exists_cons_of_ne_nil (List.ne_nil_of_mem hs)
          have hstop : resyncList cfg (y :: rest) = y :: rest := by simpa [hd] using hl.symm
          have hends := resyncList_stops cfg (y :: rest)
          rw [hstop] at hends ⊢
          rcases hends with hframed | hnone
          · obtain ⟨_, hy⟩ := framedList_eq_true_iff.1 hframed
            simp [(List.cons.inj hy).1]
          · simpa [show cfg.sync1 ∉ rest from hnone, eq_comm] using hs
        · exact hhead hd

/-- R116: garbage without the marker is dropped before a framed list. With SYNC1 = SYNC2 garbage that ends in SYNC1 would
complete a marker of its own. -/
theorem resyncList_garbage {garbage : List Byte} (hne : cfg.sync1 ≠ cfg.sync2)
    (hno : hasMarker cfg garbage = false) (hf : framedList cfg l = true) : resyncList cfg (garbage ++ l) = l := by
  induction garbage with
  | nil => exact resyncList_of_stop cfg l (.inl hf)
  | cons x garbage ih =>
    rw [hasMarker_cons, Bool.or_eq_false_iff] at hno
    obtain ⟨hx, hno⟩ := hno
    obtain ⟨rest, rfl⟩ := framedList_eq_true_iff.1 hf
    have hhead : framedList cfg (x :: (garbage ++ cfg.sync1 :: cfg.sync2 :: rest)) = false := by
      cases garbage with
      | nil => simp [framedList, hne]
      | cons y garbage => exact hx
    rw [List.cons_append, resyncList_cons hhead (by simp), ih hno]

/-! ### Frames at the front of a list -/

theorem framedList_of_decodeFrame {i : Instr} {rest : List Byte} (h : decodeFrame cfg l = .ok (i, rest)) :
    framedList cfg l = true := by
  obtain ⟨cls, id, l0, l1, P, c0, c1, rfl, -⟩ := decodeFrame_ok cfg l i rest h
  simp [framedList]

theorem decodeFrame_ne_ok_of_not_framed (h : framedList cfg l = false) (p : Instr × List Byte) :
    decodeFrame cfg l ≠ .ok p :=
  fun hd => by simp [framedList_of_decodeFrame hd] at h

/-- A frame at the front is not changed by what follows. -/
theorem decodeFrame_append {i : Instr} {rest : List Byte} (h : decodeFrame cfg l = .ok (i, rest)) (c : List Byte) :
    decodeFrame cfg (l ++ c) = .ok (i, rest ++ c) := by
  obtain ⟨cls, id, P, c0, c1, hP, rfl, rfl⟩ := frameBytes_of_decodeFrame h
  rw [List.append_assoc, decodeFrame_frameBytes cfg cls id c0 c1 P _ hP]

/-- A frame is not complete before its last byte (R107). -/
theorem decodeFrame_ne_ok_of_append {q : List Byte} {i : Instr} (h : decodeFrame cfg (l ++ q) = .ok (i, []))
    (hq : q ≠ []) (p : Instr × List Byte) : decodeFrame cfg l ≠ .ok p := by
  intro hd
  have hrest : p.2 ++ q = [] := (Prod.mk.inj (Except.ok.inj ((decodeFrame_append hd q).symm.trans h))).2
  exact hq (List.append_eq_nil_iff.1 hrest).2

/-- Every frame the decoder accepts is one of the frame rows. -/
theorem isCommand_of_decodeFrame {i : Instr} {rest : List Byte} (h : decodeFrame cfg l = .ok (i, rest)) :
    i.isCommand = false :=
  (decoderAcceptsOnlyEncodings.1 cfg l rest i h).2.1

/-- A frame at the front is framed, so the resync leaves it there. -/
theorem decodeFrame_resyncList {i : Instr} {rest : List Byte} (h : decodeFrame cfg l = .ok (i, rest)) :
    decodeFrame cfg (resyncList cfg l) = .ok (i, rest) := by
  rw [resyncList_of_stop cfg l (.inl (framedList_of_decodeFrame h)), h]

/-- Before the last byte of a frame that follows garbage no frame is complete, whatever the resync makes of the bytes. -/
theorem decodeFrame_resyncList_ne_ok {q : List Byte} {i : Instr}
    (h : decodeFrame cfg (resyncList cfg (l ++ q)) = .ok (i, [])) (hq : q ≠ []) (p : Instr × List Byte) :
    decodeFrame cfg (resyncList cfg l) ≠ .ok p := by
  intro hd
  have hf := framedList_of_decodeFrame hd
  have hstop : resyncList cfg (l ++ q) = resyncList cfg l ++ q := by
    rw [← resyncList_append]
    exact resyncList_of_stop cfg _ (.inl ((framedList_append q (two_le_length_of_framedList hf)).trans hf))
  exact decodeFrame_ne_ok_of_append (hstop ▸ h) hq p hd

/-- The resync holds the first part of a frame: one byte is too short to resync, and two are the marker. -/
theorem resyncList_of_decodeFrame_append {q : List Byte} {i : Instr} {rest : List Byte}
    (h : decodeFrame cfg (l ++ q) = .ok (i, rest)) : resyncList cfg l = l := by
  apply resyncList_of_stop
  by_cases h2 : 2 ≤ l.length
  · exact .inl ((framedList_append q h2).symm.trans (framedList_of_decodeFrame h))
  · right
    rw [List.drop_eq_nil_of_le (by omega)]
    exact List.not_mem_nil

end Lists

/-! ### The frame view -/

namespace State

variable {s : State}

theorem contents_of_fill_eq_zero (h0 : s.fill = 0) : s.contents = [] :=
  List.eq_nil_of_length_eq_zero (by rw [s.length_contents, h0])

theorem fill_of_contents_eq_nil (h : s.contents = []) : s.fill = 0 := by
  rw [← s.length_contents, h, List.length_nil]

theorem framed_eq_framedList (s : State) : s.framed = framedList s.cfg s.contents := by
  by_cases h2 : 2 ≤ s.fill
  · simp [framed, h2, headIsMarker_eq_framedList s h2]
  · have hno : framedList s.cfg s.contents ≠ true := fun hf => h2 (by simpa using two_le_length_of_framedList hf)
    simp [framed, h2, hno]

/-- R67: the length field is bytes 4 and 5, least significant first. -/
theorem payloadLength_eq (s : State) :
    s.payloadLength = (Memory.read s.buf 4).toNat + 256 * (Memory.read s.buf 5).toNat :=
  leU16_toNat [Memory.read s.buf 4, Memory.read s.buf 5] 0

/-- R11: a complete frame is a framed head with its 6 header bytes and its T bytes. -/
theorem frameComplete_iff_framed :
    s.frameComplete = true ↔ s.framed = true ∧ 6 ≤ s.fill ∧ s.frameLength ≤ s.fill := by
  simp [frameComplete, and_assoc]

/-- The resync leaves a framed buffer alone. -/
theorem resync_of_framed (h : s.framed = true) : s.resync = s := by
  have hm : s.headIsMarker = true := (Bool.and_eq_true_iff.1 h).2
  unfold resync
  cases s.fill with
  | zero => rfl
  | succ n => simp [resyncPasses, hm]

/-- Appending writes no valid byte. -/
theorem read_append_of_lt (c : List Byte) {j : Nat} (hj : j < s.fill) :
    Memory.read (s.append c).buf j = Memory.read s.buf j :=
  Memory.read_writeBytes_outside c s.buf (.inl hj)

theorem framed_append (c : List Byte) (h : s.framed = true) : (s.append c).framed = true := by
  simp only [framed, headIsMarker, Bool.and_eq_true, decide_eq_true_eq] at h ⊢
  obtain ⟨h2, hm⟩ := h
  rw [read_append_of_lt c (by omega), read_append_of_lt c (by omega)]
  exact ⟨by rw [append_fill]; omega, hm⟩

theorem frameLength_append (c : List Byte) (h6 : 6 ≤ s.fill) : (s.append c).frameLength = s.frameLength := by
  simp only [frameLength, payloadLength_eq, read_append_of_lt c (show 4 < s.fill by omega),
    read_append_of_lt c (show 5 < s.fill by omega)]

/-! ### The passes of the resync -/

/-- A pass removes at least one byte and leaves the candidate (R105). -/
theorem findFrom_one_bounds {b : Byte} {p : Nat} (h : s.findFrom 1 b = some p) : 1 ≤ p ∧ p < s.fill := by
  obtain ⟨h1, hp, -⟩ := (s.findFrom_eq_some_iff b 1 p).1 h
  exact ⟨h1, hp⟩

theorem resyncPasses_succ (n : Nat) (s : State) (h : s.fill - 1 ≤ n) : s.resyncPasses (n + 1) = s.resyncPasses n := by
  induction n generalizing s with
  | zero =>
    unfold resyncPasses
    exact if_neg (by omega)
  | succ n ih =>
    rw [resyncPasses, resyncPasses]
    split
    · split
      · rfl
      · next p hp =>
        have hbounds := findFrom_one_bounds hp
        exact ih _ (by rw [removeFront_fill]; omega)
    · rfl

/-- R105: `fill - 1` passes are enough. -/
theorem resyncPasses_eq_resync (n : Nat) (s : State) (h : s.fill - 1 ≤ n) : s.resyncPasses n = s.resync := by
  have hleast : ∀ m, s.fill - 1 ≤ m → s.resyncPasses m = s.resyncPasses (s.fill - 1) := fun m hm => by
    induction m, hm using Nat.le_induction with
    | base => rfl
    | succ m hm ih => rw [resyncPasses_succ m s hm, ih]
  rw [resync, hleast n h, hleast s.fill (Nat.sub_le _ _)]

end State
end Sys2Proof.Machine
namespace Sys2Proof.Machine

open Sys2Proof

/-! ### INGEST, one equation per outcome -/

section Ingest

variable {c : List Byte} {s : State}

/-- R102. -/
theorem exec_ingest_overflow (hc : c ≠ []) (hover : s.cfg.bufCap < s.fill + c.length) :
    exec (.ingest c) s = .next (s.discardAll.raise .bufOverflow) := by
  rcases execIngest_cases c s with ⟨hnil, -⟩ | ⟨-, -, he⟩ | ⟨-, hfit, -⟩ | ⟨-, hfit, -⟩
  · exact absurd hnil hc
  · exact he
  · omega
  · omega

/-- R106, R107. -/
theorem exec_ingest_incomplete (hc : c ≠ []) (hfit : s.fill + c.length ≤ s.cfg.bufCap)
    (hT : (s.append c).resync.frameComplete = false) :
    exec (.ingest c) s = .next ((s.append c).resync.returnStatus .ok) := by
  rcases execIngest_cases c s with ⟨hnil, -⟩ | ⟨-, hover, -⟩ | ⟨-, -, -, he⟩ | ⟨-, -, hT', -⟩
  · exact absurd hnil hc
  · omega
  · exact he
  · cases hT.symm.trans hT'

/-- R108. -/
theorem exec_ingest_complete (hc : c ≠ []) (hfit : s.fill + c.length ≤ s.cfg.bufCap)
    (hT : (s.append c).resync.frameComplete = true) :
    exec (.ingest c) s = .next ((afterFrame (headInstr (s.append c).resync) (s.append c).resync).removeFront
      (s.append c).resync.frameLength) := by
  rcases execIngest_cases c s with ⟨hnil, -⟩ | ⟨-, hover, -⟩ | ⟨-, -, hT', -⟩ | ⟨-, -, -, he⟩
  · exact absurd hnil hc
  · omega
  · cases hT.symm.trans hT'
  · exact he

/-- The row of the frame at the front, with any trailer (R68). -/
theorem exec_head_row (s : State) (c0 c1 : Byte) :
    exec (frameInstr s.cfg (Memory.read s.buf 2) (Memory.read s.buf 3) s.payload c0 c1) s =
      .next (afterFrame (headInstr s) s) := by
  rw [exec_frame _ _ (frameInstr_isCommand _ _ _ _ _ _), headInstr, afterFrame_frameInstr_trailer]

/-- DECODE answers neither of INGEST's and XFAIL's own error statuses (R110). -/
theorem afterFrame_status {i : Instr} (hi : i.isCommand = false) (s : State) :
    ∃ st, (afterFrame i s).response = Response.ofStatus st ∧ st ≠ .bufOverflow ∧ st ≠ .transportFailure := by
  cases i with
  | navPvt P c0 c1 =>
    simp only [afterFrame]
    split <;> exact ⟨_, rfl, by decide, by decide⟩
  | unrecognizedMessage | unrecognizedClass => exact ⟨_, rfl, by decide, by decide⟩
  | ingest | xfail | peekAlways | peekIfNew | reset => cases hi

/-! ### INGEST on the valid bytes -/

theorem contents_resync_append (c : List Byte) (hw : Memory.wf s.buf = true) :
    (s.append c).resync.contents = resyncList s.cfg (s.contents ++ c) := by
  rw [State.contents_resync _ (s.wf_append c hw), State.contents_append s c hw, State.append_cfg]

/-- Without a frame in front the resynced bytes are held, and the cell stays (R106, R107). -/
theorem exec_ingest_waits (hw : Memory.wf s.buf = true) (hc : c ≠ []) (hfit : s.fill + c.length ≤ s.cfg.bufCap)
    (hd : ∀ p, decodeFrame s.cfg (resyncList s.cfg (s.contents ++ c)) ≠ .ok p) :
    ∃ t, exec (.ingest c) s = .next t ∧ t.contents = resyncList s.cfg (s.contents ++ c) ∧
      t.record = s.record ∧ t.fresh = s.fresh ∧ t.response = Response.ofStatus .ok := by
  have hcont := contents_resync_append c hw
  have hT : (s.append c).resync.frameComplete = false := by
    rw [← Bool.not_eq_true, State.frameComplete_iff, hcont]
    simpa using hd
  exact ⟨_, exec_ingest_incomplete hc hfit hT, hcont, by simp, by simp, rfl⟩

/-- A frame in front runs its row, and what follows it is held (R108). -/
theorem exec_ingest_decodes {i : Instr} {rest : List Byte} (hw : Memory.wf s.buf = true) (hc : c ≠ [])
    (hfit : s.fill + c.length ≤ s.cfg.bufCap)
    (hd : decodeFrame s.cfg (resyncList s.cfg (s.contents ++ c)) = .ok (i, rest)) :
    ∃ t, exec (.ingest c) s = .next t ∧ t.sameAnswer (afterFrame i s) ∧ t.contents = rest := by
  have hcfg : (s.append c).resync.cfg = s.cfg := by simp
  have hi := isCommand_of_decodeFrame hd
  rw [← contents_resync_append c hw, ← hcfg] at hd
  have hT := (State.frameComplete_iff _).2 ⟨_, hd⟩
  rw [decodeFrame_contents_complete _ hT] at hd
  obtain ⟨rfl, rfl⟩ := Prod.mk.inj (Except.ok.inj hd)
  refine ⟨_, exec_ingest_complete hc hfit hT, ?_, ?_⟩
  · exact afterFrame_sameAnswer hi (by simp) (by simp) (by simp)
  · rw [State.contents_removeFront _ _ (by simpa using State.wf_resync _ (s.wf_append c hw)), afterFrame_contents]

/-- Unframed bytes with no SYNC1 behind the first are all held (R105 (c), R114). -/
theorem exec_ingest_garbage (hw : Memory.wf s.buf = true) (hfit : s.fill + c.length ≤ s.cfg.bufCap)
    (hf : framedList s.cfg (s.contents ++ c) = false) (hs : s.cfg.sync1 ∉ (s.contents ++ c).drop 1) :
    ∃ t, exec (.ingest c) s = .next t ∧ t.contents = s.contents ++ c ∧ t.record = s.record ∧ t.fresh = s.fresh ∧
      t.response = Response.ofStatus .ok := by
  by_cases hc : c = []
  · subst hc
    exact ⟨s.returnStatus .ok, rfl, (List.append_nil _).symm, rfl, rfl, rfl⟩
  · have hstop := resyncList_of_stop s.cfg (s.contents ++ c) (.inr hs)
    have h := exec_ingest_waits hw hc hfit (by rw [hstop]; exact decodeFrame_ne_ok_of_not_framed hf)
    rwa [hstop] at h

/-- R105 (c): a buffer without a candidate is held until a chunk brings a SYNC1. -/
theorem exec_ingest_no_candidate (hw : Memory.wf s.buf = true) (hfit : s.fill + c.length ≤ s.cfg.bufCap)
    (h2 : 2 ≤ s.fill) (hf : s.framed = false) (hs : s.cfg.sync1 ∉ s.contents.drop 1) (hc : s.cfg.sync1 ∉ c) :
    ∃ t, exec (.ingest c) s = .next t ∧ t.contents = s.contents ++ c := by
  have hlen : 2 ≤ s.contents.length := by simpa using h2
  rw [State.framed_eq_framedList, ← framedList_append c hlen] at hf
  have hs' : s.cfg.sync1 ∉ (s.contents ++ c).drop 1 := by
    rw [List.drop_append_of_le_length (by omega), List.mem_append]
    exact not_or.2 ⟨hs, hc⟩
  obtain ⟨t, ht, hcont, -⟩ := exec_ingest_garbage hw hfit hf hs'
  exact ⟨t, ht, hcont⟩

/-! ### What a decode writes (R117) -/

/-- A frame row leaves the cell, or is the recognized message with payload enough. -/
theorem afterFrame_cell_cases (i : Instr) (s : State) :
    ((afterFrame i s).record = s.record ∧ (afterFrame i s).fresh = s.fresh) ∨
      ∃ P c0 c1, i = .navPvt P c0 c1 ∧ s.cfg.pvtMinLen ≤ P.length ∧
        afterFrame i s = (s.commit (extractRecord s.cfg P)).returnStatus .ok := by
  cases i with
  | navPvt P c0 c1 =>
    by_cases hP : P.length < s.cfg.pvtMinLen
    · simp [afterFrame, hP]
    · exact .inr ⟨P, c0, c1, rfl, by omega, by simp only [afterFrame, if_neg hP]⟩
  | _ => exact .inl ⟨rfl, rfl⟩

/-- The recognized message at the front has the recognized class and id (R69). -/
theorem class_id_of_headInstr_eq_navPvt {P : List Byte} {c0 c1 : Byte} (h : headInstr s = .navPvt P c0 c1) :
    Memory.read s.buf 2 = s.cfg.pvtClass ∧ Memory.read s.buf 3 = s.cfg.pvtId := by
  unfold headInstr frameInstr at h
  split at h
  · next hcls =>
    split at h
    · next hid => exact ⟨hcls, hid⟩
    · cases h
  · cases h

/-! ### The memory INGEST leaves alone (R46) -/

theorem read_resync_append_above (c : List Byte) (hw : Memory.wf s.buf = true) {j : Nat} (hj : s.fill + c.length ≤ j) :
    Memory.read (s.append c).resync.buf j = Memory.read s.buf j := by
  rw [State.resync, State.read_resyncPasses_above _ _ j (s.wf_append c hw) hj]
  exact Memory.read_writeBytes_outside c s.buf (.inr hj)

end Ingest

/-! ### Frame instructions and their bytes -/

/-- The bytes of a well-formed frame instruction decode to it, before any further bytes. -/
theorem decodeFrame_of_encode {cfg : Config} {i : Instr} {bytes : List Byte} (hw : i.wf cfg = true)
    (he : encode cfg i = .frame bytes) (rest : List Byte) : decodeFrame cfg (bytes ++ rest) = .ok (i, rest) :=
  (decodeOfEncodeIsTheInstruction cfg i hw).2 bytes rest he

/-! ### Chunks in turn -/

theorem deliverAll_cons {c : List Byte} {cs : List (List Byte)} {s t : State} :
    deliverAll (c :: cs) s = some t ↔
      ∃ u, exec (.ingest c) s = .next u ∧ u.response.status ≠ some .bufOverflow ∧ deliverAll cs u = some t := by
  obtain ⟨u, hu⟩ := exec_completes (.ingest c) s
  simp [deliverAll, hu]

theorem deliverAll_append {cs cs' : List (List Byte)} {s t : State} :
    deliverAll (cs ++ cs') s = some t ↔ ∃ u, deliverAll cs s = some u ∧ deliverAll cs' u = some t := by
  induction cs generalizing s with
  | nil => simp [deliverAll]
  | cons c cs ih =>
    simp only [List.cons_append, deliverAll_cons, ih]
    exact ⟨fun ⟨u, hu, hok, w, hw, ht⟩ => ⟨w, ⟨u, hu, hok, hw⟩, ht⟩,
      fun ⟨w, ⟨u, hu, hok, hw⟩, ht⟩ => ⟨u, hu, hok, w, hw, ht⟩⟩

/-- An INGEST that answers no overflow had a chunk that fits (R102). -/
theorem fits_of_not_overflow {c : List Byte} {s u : State} (hc : c ≠ []) (hu : exec (.ingest c) s = .next u)
    (hok : u.response.status ≠ some .bufOverflow) : s.fill + c.length ≤ s.cfg.bufCap := by
  by_contra hover
  rw [exec_ingest_overflow hc (Nat.lt_of_not_le hover)] at hu
  cases hu
  exact hok rfl

/-- While no frame is complete, the valid bytes are the resync of all bytes delivered, and the cell stays. -/
theorem deliverAll_waits {chunks : List (List Byte)} {delivered : List Byte} {s t : State} (hs : s.Inv)
    (hcont : s.contents = resyncList s.cfg delivered) (hne : ∀ c ∈ chunks, c ≠ [])
    (hno : ∀ l, l <+: delivered ++ chunks.flatten → ∀ p, decodeFrame s.cfg (resyncList s.cfg l) ≠ .ok p)
    (h : deliverAll chunks s = some t) :
    t.Inv ∧ t.cfg = s.cfg ∧ t.contents = resyncList s.cfg (delivered ++ chunks.flatten) ∧ t.record = s.record ∧
      t.fresh = s.fresh := by
  induction chunks generalizing s delivered with
  | nil =>
    cases h
    exact ⟨hs, rfl, by simpa using hcont, rfl, rfl⟩
  | cons c cs ih =>
    obtain ⟨u, hu, hok, ht⟩ := deliverAll_cons.1 h
    obtain ⟨hc, hne⟩ := List.forall_mem_cons.1 hne
    have hresync : resyncList s.cfg (s.contents ++ c) = resyncList s.cfg (delivered ++ c) := by
      rw [hcont, resyncList_append]
    rw [List.flatten_cons, ← List.append_assoc] at hno ⊢
    obtain ⟨u', hu', hucont, hurec, hufresh, -⟩ := exec_ingest_waits hs.1 hc (fits_of_not_overflow hc hu hok)
      (hresync ▸ hno _ (List.prefix_append _ _))
    cases hu.symm.trans hu'
    have hcfg := (exec_cfg_host hu).1
    obtain ⟨htinv, htcfg, htcont, htrec, htfresh⟩ := ih (exec_inv hs hu) (by rw [hucont, hresync, hcfg]) hne
      (hcfg ▸ hno) ht
    exact ⟨htinv, htcfg.trans hcfg, hcfg ▸ htcont, htrec.trans hurec, htfresh.trans hufresh⟩

/-- What is delivered before the last bytes of a frame completes none. -/
theorem decodeFrame_resyncList_ne_ok_of_isPrefix {cfg : Config} {l delivered rest : List Byte} {i : Instr}
    (hd : decodeFrame cfg (resyncList cfg (delivered ++ rest)) = .ok (i, [])) (hrest : rest ≠ [])
    (hl : l <+: delivered) (p : Instr × List Byte) : decodeFrame cfg (resyncList cfg l) ≠ .ok p := by
  obtain ⟨q, rfl⟩ := hl
  exact decodeFrame_resyncList_ne_ok (q := q ++ rest) (by rwa [← List.append_assoc]) (by simp [hrest]) p

/-- Chunks whose bytes resync to one frame run that frame in their last INGEST (R115, R116). -/
theorem deliverAll_decodes {chunks : List (List Byte)} {s t : State} {i : Instr} (hs : s.Inv) (h0 : s.fill = 0)
    (hne : ∀ c ∈ chunks, c ≠ []) (hd : decodeFrame s.cfg (resyncList s.cfg chunks.flatten) = .ok (i, []))
    (h : deliverAll chunks s = some t) : t.sameAnswer (afterFrame i s) ∧ t.fill = 0 := by
  obtain ⟨init, last, rfl⟩ : ∃ init last, chunks = init ++ [last] := by
    refine (List.eq_nil_or_concat' chunks).resolve_left ?_
    rintro rfl
    cases framedList_of_decodeFrame hd
  rw [List.flatten_append, List.flatten_singleton] at hd
  have hlast : last ≠ [] := hne last (by simp)
  obtain ⟨u, hinit, hu⟩ := deliverAll_append.1 h
  obtain ⟨huinv, hucfg, hucont, hurec, hufresh⟩ := deliverAll_waits (delivered := []) hs
    (State.contents_of_fill_eq_zero h0) (fun c hc => hne c (List.mem_append_left _ hc))
    (fun _ => decodeFrame_resyncList_ne_ok_of_isPrefix hd hlast) hinit
  obtain ⟨v, hv, hok, hvt⟩ := deliverAll_cons.1 hu
  cases hvt
  obtain ⟨v', hv', hsame, hcont⟩ := exec_ingest_decodes (i := i) (rest := []) huinv.1 hlast
    (fits_of_not_overflow hlast hv hok) (by rw [hucont, hucfg, resyncList_append, List.nil_append, hd])
  cases hv.symm.trans hv'
  exact ⟨sameAnswer_trans hsame (afterFrame_sameAnswer (isCommand_of_decodeFrame hd) hucfg hurec hufresh),
    State.fill_of_contents_eq_nil hcont⟩

/-! ### The instructions that store nothing -/

/-- Only INGEST, RESET and NAV_PVT write the record (R24). -/
theorem exec_record {i : Instr} {s t : State} (hingest : ∀ c, i ≠ .ingest c) (hreset : i ≠ .reset)
    (hpvt : ∀ P c0 c1, i ≠ .navPvt P c0 c1) (h : exec i s = .next t) : t.record = s.record := by
  cases i with
  | ingest c => exact absurd rfl (hingest c)
  | reset => exact absurd rfl hreset
  | navPvt P c0 c1 => exact absurd rfl (hpvt P c0 c1)
  | peekAlways => exact (exec_accessor_cell (.inl rfl) h).1
  | peekIfNew => exact (exec_accessor_cell (.inr rfl) h).1
  | xfail | unrecognizedMessage | unrecognizedClass =>
    cases h
    rfl

end Sys2Proof.Machine

open Sys2Proof Sys2Proof.Machine

/-- Settles O30: the resynced bytes are the list's, and the wire decoder accepts them exactly when a frame is complete. -/
theorem ingestRefinesTheByteListMachine : Obligations.IngestRefinesTheByteListMachine := by
  rintro c s ⟨hw, -, -⟩
  obtain ⟨t, ht⟩ := exec_completes (.ingest c) s
  obtain ⟨hcfg, hhost⟩ := exec_cfg_host ht
  refine ⟨t, ht, ?_⟩
  unfold ingestList
  rw [s.length_contents]
  split
  · next hc =>
    subst hc
    cases ht
    exact ⟨rfl, rfl, rfl, rfl, rfl, rfl⟩
  next hc =>
  split
  · next hover =>
    cases (exec_ingest_overflow hc hover).symm.trans ht
    exact ⟨rfl, rfl, rfl, rfl, rfl, rfl⟩
  next hfit =>
  split
  · next i rest hd =>
    obtain ⟨t', ht', hsame, hcont⟩ := exec_ingest_decodes hw hc (by omega) hd
    cases ht.symm.trans ht'
    exact ⟨hcont, hcfg, hhost, _, exec_frame i s (isCommand_of_decodeFrame hd), hsame⟩
  · next e hd =>
    obtain ⟨t', ht', hcont, hrest⟩ := exec_ingest_waits hw hc (by omega) (by simp [hd])
    cases ht.symm.trans ht'
    exact ⟨hcont, hcfg, hhost, hrest⟩

/-- Settles O28: the first part is the start of a frame and is held; with the second part the whole frame is there. -/
theorem splitFrameDecodesAsTheWhole : Obligations.SplitFrameDecodesAsTheWhole := by
  intro s i bytes k hs h0 hi he hlen hk0 hk
  have hnil := State.contents_of_fill_eq_zero h0
  have hd : decodeFrame s.cfg bytes = .ok (i, []) := by simpa using decodeFrame_of_encode hi he []
  have hrow := isCommand_of_decodeFrame hd
  have hdr := decodeFrame_resyncList hd
  have hsplit := List.take_append_drop k bytes
  have hfirst : bytes.take k ≠ [] := List.ne_nil_of_length_pos (by rw [List.length_take]; omega)
  have hlast : bytes.drop k ≠ [] := List.ne_nil_of_length_pos (by rw [List.length_drop]; omega)
  have hstop : resyncList s.cfg (bytes.take k) = bytes.take k := resyncList_of_decodeFrame_append (hsplit.symm ▸ hd)
  obtain ⟨u, hu, hucont, hurec, hufresh, huresp⟩ := exec_ingest_waits hs.1 hfirst
    (by rw [h0, List.length_take]; omega)
    (by rw [hnil, List.nil_append]; exact decodeFrame_resyncList_ne_ok (hsplit ▸ hdr) hlast)
  rw [hnil, List.nil_append, hstop] at hucont
  have hucfg := (exec_cfg_host hu).1
  obtain ⟨v, hv, hvsame, hvcont⟩ := exec_ingest_decodes (exec_inv hs hu).1 hlast
    (by rw [← u.length_contents, ← List.length_append, hucont, hsplit, hucfg]; exact hlen)
    (by rw [hucont, hsplit, hucfg]; exact hdr)
  obtain ⟨w, hww, hwsame, hwcont⟩ := exec_ingest_decodes hs.1 (c := bytes) (fun h => by simp [h] at hk)
    (by rw [h0]; omega) (by rw [hnil]; exact hdr)
  refine ⟨u, v, w, hu, huresp, hucont, hurec, hufresh, hv, hww, ?_, State.fill_of_contents_eq_nil hvcont,
    State.fill_of_contents_eq_nil hwcont⟩
  have hvs := sameAnswer_trans hvsame (afterFrame_sameAnswer hrow hucfg hurec hufresh)
  obtain ⟨hrec, hfresh, hresp⟩ := hwsame
  exact sameAnswer_trans hvs ⟨hrec.symm, hfresh.symm, hresp.symm⟩

/-- Settles O29: until the frame's last byte the valid bytes are the resync of all bytes delivered, which is the frame's
part once two of its bytes are there; the last chunk then completes the frame. -/
theorem garbageThenFrameIsDecoded : Obligations.GarbageThenFrameIsDecoded := by
  intro s i garbage bytes chunks hs h0 hsync hi he hgarbage hne
  have hd : decodeFrame s.cfg bytes = .ok (i, []) := by simpa using decodeFrame_of_encode hi he []
  have hframed := framedList_of_decodeFrame hd
  have hdr : decodeFrame s.cfg (resyncList s.cfg (garbage ++ bytes)) = .ok (i, []) := by
    rw [resyncList_garbage hsync hgarbage hframed, hd]
  refine ⟨fun t hall ht => ?_, fun t rest hall hrest h2 ht => ?_⟩
  · exact ⟨_, exec_frame i s (isCommand_of_decodeFrame hd), deliverAll_decodes hs h0 hne (hall ▸ hdr) ht⟩
  · obtain ⟨-, -, htcont, htrec, htfresh⟩ := deliverAll_waits (delivered := []) hs
      (State.contents_of_fill_eq_zero h0) hne
      (fun _ => decodeFrame_resyncList_ne_ok_of_isPrefix (hall.symm ▸ hdr) hrest) ht
    refine ⟨?_, htrec, htfresh⟩
    -- the bytes delivered are the garbage and a part of the frame that holds its marker
    obtain ⟨part, hpart⟩ : garbage <+: chunks.flatten :=
      List.prefix_of_prefix_length_le (List.prefix_append garbage bytes) ⟨rest, hall⟩ (by omega)
    rw [← hpart] at hall h2 htcont ⊢
    have hbytes : part ++ rest = bytes := by simpa using hall
    have hpartFramed : framedList s.cfg part = true := by
      rw [← framedList_append rest (by simpa using h2), hbytes, hframed]
    rw [htcont, List.nil_append, resyncList_garbage hsync hgarbage hpartFramed, List.drop_left]

/-- Settles O16: the passes remove bytes, and the list resync stops framed or without a SYNC1 behind its head. -/
theorem resyncEndsInOneOfThreeOutcomes : Obligations.ResyncEndsInOneOfThreeOutcomes := by
  intro s hw
  refine ⟨fun p hp => State.findFrom_one_bounds hp, fun n hn => State.resyncPasses_eq_resync n s hn, ?_⟩
  intro r noCandidate
  have hcfg : r.cfg = s.cfg := s.resync_cfg
  have hwr : Memory.wf r.buf = true := State.wf_resync s hw
  have hcont : r.contents = resyncList s.cfg s.contents := State.contents_resync s hw
  have hstops := resyncList_stops s.cfg s.contents
  rw [← hcont] at hstops
  clear_value r
  have hframed : r.framed = framedList s.cfg r.contents := hcfg ▸ r.framed_eq_framedList
  by_cases h2 : 2 ≤ r.fill
  · right
    cases hf : framedList s.cfg r.contents with
    | true => exact .inl ⟨h2, hframed.trans hf⟩
    | false =>
      have hnone : s.cfg.sync1 ∉ r.contents.drop 1 := hstops.resolve_left (by simp [hf])
      have hcand := (r.findFrom_eq_none_iff s.cfg.sync1 1).1 ((r.findFrom_one_eq_none_iff _).2 hnone)
      refine .inr ⟨h2, hframed.trans hf, hcand, fun c t hc hfit ht => ?_⟩
      obtain ⟨t', ht', hheld⟩ := exec_ingest_no_candidate hwr (hcfg ▸ hfit) h2 (hframed.trans hf) (hcfg ▸ hnone)
        (hcfg ▸ hc)
      cases ht.symm.trans ht'
      exact hheld
  · exact .inl ⟨by omega, by simp [State.framed, h2]⟩

/-- Settles O17, from what the list resync drops. -/
theorem resyncDropsNoMarker : Obligations.ResyncDropsNoMarker := by
  intro s hw
  obtain ⟨dropped, hl, hno, hhead⟩ := resyncList_drops s.cfg s.contents
  rw [← State.contents_resync s hw] at hl hhead
  exact ⟨dropped, hl, hno, hhead, s.resync_cfg, s.resync_record, s.resync_fresh, s.resync_host⟩

/-- Settles O19: a chunk that fits is answered by step 5 or by DECODE, neither of which overflows. -/
theorem overflowDropsEverything : Obligations.OverflowDropsEverything := by
  refine fun c s hc => ⟨exec_ingest_overflow hc, fun hfit => ?_, fun hlong => exec_ingest_overflow hc (by omega)⟩
  cases hT : (s.append c).resync.frameComplete with
  | false => exact ⟨_, exec_ingest_incomplete hc hfit hT, by simp [Response.ofStatus]⟩
  | true =>
    obtain ⟨st, hst, hne, -⟩ := afterFrame_status (frameInstr_isCommand _ _ _ _ _ _) (s.append c).resync
    exact ⟨_, exec_ingest_complete hc hfit hT, by
      rw [State.removeFront_response, headInstr, hst]
      exact fun h => hne (Option.some.inj h)⟩

/-- Settles O21: step 7 runs the row of the front, and RemoveFront drops T bytes. -/
theorem completeFrameIsDecodedThenRemoved : Obligations.CompleteFrameIsDecodedThenRemoved := by
  intro c s c0 c1 hc hfit hw
  have hwu : Memory.wf (s.append c).resync.buf = true := State.wf_resync _ (s.wf_append c hw)
  have he := exec_ingest_complete hc hfit
  generalize (s.append c).resync = u at hwu he ⊢
  intro u' L h6 hframed hT
  have hL : u.payloadLength = L := u.payloadLength_eq
  have hlen : u.frameLength = L + 8 := congrArg (· + 8) hL
  have hcomplete : u.frameComplete = true := State.frameComplete_iff_framed.2 ⟨hframed, h6, hlen ▸ hT⟩
  refine ⟨afterFrame (headInstr u) u, _, ?_, he hcomplete, ⟨rfl, rfl, rfl⟩, ?_, ?_⟩
  · rw [← hL]
    exact exec_head_row u c0 c1
  · rw [State.contents_removeFront _ _ (by simpa using hwu), afterFrame_contents, hlen]
  · rw [State.removeFront_fill, afterFrame_fill, hlen]

/-- Settles O22: each INGEST of a non-empty chunk runs the frame at the front and holds what follows. -/
theorem oneFramePerIngest : Obligations.OneFramePerIngest := by
  intro s i j bi bj c hs h0 hi hj hbi hbj hc hfit hfit'
  have hdi := decodeFrame_of_encode hi hbi bj
  have hdj := decodeFrame_of_encode hj hbj c
  have hne : bi ++ bj ≠ [] := fun h => by simpa [h, framedList] using framedList_of_decodeFrame hdi
  obtain ⟨t, ht, htsame, htcont⟩ := exec_ingest_decodes hs.1 hne (by rw [h0]; omega)
    (by rw [State.contents_of_fill_eq_zero h0]; exact decodeFrame_resyncList hdi)
  have htcfg := (exec_cfg_host ht).1
  obtain ⟨y, hy, hysame, hycont⟩ := exec_ingest_decodes (s := t.returnStatus .ok) (exec_inv hs ht).1 hc
    (by
      rw [State.returnStatus_fill, ← t.length_contents, htcont, ← List.length_append, State.returnStatus_cfg, htcfg]
      exact hfit')
    (by
      rw [show (t.returnStatus .ok).contents = bj from htcont, State.returnStatus_cfg, htcfg]
      exact decodeFrame_resyncList hdj)
  exact ⟨_, t, t.returnStatus .ok, _, y, exec_frame i s (isCommand_of_decodeFrame hdi), ht, htsame, htcont, rfl, htcont,
    rfl, rfl, exec_frame j _ (isCommand_of_decodeFrame hdj), hy, hysame, hycont⟩

/-- Settles O23, by the step that ended INGEST. -/
theorem ingestStatusBySteps : Obligations.IngestStatusBySteps := by
  intro c s
  rcases execIngest_cases c s with ⟨hc, he⟩ | ⟨hc, hover, he⟩ | ⟨hc, hfit, hT, he⟩ | ⟨hc, hfit, hT, he⟩
  · exact ⟨_, .ok, he, rfl, by decide, by simp [hc], by simp, fun _ => rfl, absurd hc⟩
  · exact ⟨_, .bufOverflow, he, rfl, by decide, by simp [hc, hover], by simp, by simp [hc, Nat.not_le.2 hover],
      fun _ hfit => absurd hfit (Nat.not_le.2 hover)⟩
  · exact ⟨_, .ok, he, rfl, by decide, by simp [Nat.not_lt.2 hfit], by simp, fun _ => rfl, by simp [hT]⟩
  · obtain ⟨st, hst, hno, hnt⟩ := afterFrame_status (i := headInstr (s.append c).resync)
      (frameInstr_isCommand _ _ _ _ _ _) (s.append c).resync
    exact ⟨_, st, he, hst, hnt, by simp [hno, Nat.not_lt.2 hfit], fun _ => ⟨hc, hfit, hT⟩, by simp [hc, hT],
      fun _ _ _ => ⟨_, exec_head_row _ 0 0, hst⟩⟩

/-- Settles O25: Append is guarded by the capacity, and resync and removal only lower `fill`. -/
theorem fillStaysWithinCapacity : Obligations.FillStaysWithinCapacity := by
  refine fun c s h => ⟨?_, _, rfl, h, rfl⟩
  have hle := (s.append c).resync_fill_le
  rw [State.append_fill] at hle
  rcases execIngest_cases c s with ⟨-, he⟩ | ⟨-, -, he⟩ | ⟨-, hfit, -, he⟩ | ⟨-, hfit, -, he⟩
  · exact ⟨_, he, h, rfl⟩
  · exact ⟨_, he, Nat.zero_le _, rfl⟩
  · exact ⟨_, he, by simpa using hle.trans hfit, by simp⟩
  · exact ⟨_, he, by simpa using (hle.trans hfit).trans (Nat.le_add_right _ _), by simp⟩

/-- Settles O26: the resync leaves a framed head alone, and T stays above every `fill` within the capacity. -/
theorem oversizedFrameHoldsUntilOverflow : Obligations.OversizedFrameHoldsUntilOverflow := by
  rintro c s ⟨hw, -, hfill⟩ hframed h6 hT hc
  have hnever : ∀ u : State, u.frameLength = s.frameLength → u.fill ≤ s.cfg.bufCap → u.frameComplete = false := by
    intro u hlen hu
    rw [← Bool.not_eq_true, State.frameComplete_iff_framed]
    omega
  refine ⟨hnever s rfl hfill, fun hfit => ?_, fun hover => ⟨_, exec_ingest_overflow hc hover, rfl, rfl⟩⟩
  have hframed' := State.framed_append c hframed
  have hlen := State.frameLength_append c h6
  have hkeep : (s.append c).resync = s.append c := State.resync_of_framed hframed'
  have he := exec_ingest_incomplete hc hfit
  rw [hkeep] at he
  exact ⟨_, he (hnever _ hlen hfit), rfl, State.contents_append s c hw, hframed', hlen, rfl, rfl, rfl⟩

/-- Settles O27: such bytes stop the resync at once and are no frame. -/
theorem garbageIsKeptUntilACandidate : Obligations.GarbageIsKeptUntilACandidate := by
  intro c s hw _ hfit hf hs
  obtain ⟨t, ht, hcont, hrec, hfresh, hresp⟩ := exec_ingest_garbage hw hfit hf hs
  exact ⟨t, ht, hcont, hresp, hrec, hfresh⟩

/-- Settles O31: of INGEST's outcomes only a complete frame touches the cell, and only as the recognized message. -/
theorem ingestWritesTheCellOnlyByDecoding : Obligations.IngestWritesTheCellOnlyByDecoding := by
  refine fun c s t => ⟨fun h => ?_, fun h => by cases h; exact ⟨rfl, rfl⟩⟩
  rcases execIngest_cases c s with ⟨-, he⟩ | ⟨-, -, he⟩ | ⟨-, -, -, he⟩ | ⟨-, -, hT, he⟩ <;>
    obtain rfl := Host.Outcome.next.inj (he.symm.trans h)
  · exact .inl ⟨rfl, rfl⟩
  · exact .inl ⟨rfl, rfl⟩
  · exact .inl ⟨by simp, by simp⟩
  · have hcfg : (s.append c).resync.cfg = s.cfg := by simp
    rcases afterFrame_cell_cases (headInstr (s.append c).resync) (s.append c).resync with
      hsame | ⟨P, c0, c1, hi, hP, hafter⟩
    · exact .inl (by simpa using hsame)
    · obtain ⟨hcls, hid⟩ := class_id_of_headInstr_eq_navPvt hi
      obtain rfl := payload_of_headInstr_eq_navPvt hi
      rw [hcfg] at hcls hid hP hafter
      rw [hafter]
      exact .inr ⟨rfl, rfl, hT, hcls, hid, by simpa [State.payload] using hP, rfl⟩

/-- Settles O32: Append writes below `fill + |c|`, and resync and removal below the `fill` they find. -/
theorem ingestFrame : Obligations.IngestFrame := by
  intro c s t hw h
  obtain ⟨hcfg, hhost⟩ := exec_cfg_host h
  refine ⟨hcfg, hhost, ?_⟩
  rcases execIngest_cases c s with ⟨-, he⟩ | ⟨-, -, he⟩ | ⟨hc, hfit, -, he⟩ | ⟨hc, hfit, -, he⟩ <;>
    obtain rfl := Host.Outcome.next.inj (he.symm.trans h)
  · exact ⟨fun _ _ => rfl, fun _ _ => rfl⟩
  · exact ⟨fun _ _ => rfl, fun _ _ => rfl⟩
  · exact ⟨fun j hj => read_resync_append_above c hw hj, by simp [hc, Nat.not_lt.2 hfit]⟩
  · refine ⟨fun j hj => ?_, by simp [hc, Nat.not_lt.2 hfit]⟩
    have hle := (s.append c).resync_fill_le
    rw [State.append_fill] at hle
    have hwu := State.wf_resync _ (s.wf_append c hw)
    rw [State.read_removeFront_above _ _ j (by simpa using hwu) (by rw [afterFrame_fill]; omega), afterFrame_buf,
      read_resync_append_above c hw hj]

/-- Settles O50, from what each instruction but INGEST does to the buffer and to the record. -/
theorem nonStoringInstructionsFrame : Obligations.NonStoringInstructionsFrame := by
  intro i s t hingest h
  obtain ⟨hbuf, hfill⟩ := exec_buf_fill hingest h
  obtain ⟨hcfg, hhost⟩ := exec_cfg_host h
  refine ⟨fun j => by rw [hbuf], hcfg, hhost, fun hreset => hfill.resolve_right (fun hr => hreset hr.1),
    fun hreset hpvt => exec_record hingest hreset hpvt h, ?_⟩
  rintro (rfl | ⟨id, P, c0, c1, rfl⟩ | ⟨cls, id, P, c0, c1, rfl⟩) <;> cases h <;> rfl

/-- Settles O20: the three waiting conditions are those of an incomplete frame. -/
theorem ingestWaitsForACompleteFrame : Obligations.IngestWaitsForACompleteFrame := by
  intro c s hc hfit u T
  have hT : u.frameLength = T := congrArg (· + 8) u.payloadLength_eq
  refine ⟨fun hwait => ⟨exec_ingest_incomplete hc hfit ?_, by simp [u], by simp [u]⟩,
    fun h6 hframed hle => ⟨State.frameComplete_iff_framed.2 ⟨hframed, h6, hT ▸ hle⟩, hT⟩⟩
  rw [← Bool.not_eq_true, State.frameComplete_iff_framed]
  rintro ⟨hframed, h6, hle⟩
  rcases hwait with h | h | h
  · exact absurd h6 (Nat.not_le.2 h)
  · cases hframed.symm.trans h
  · exact absurd (hT ▸ hle) (Nat.not_le.2 h)

/-- Settles O18: step 1 ends the command. -/
theorem emptyChunkChangesNothing : Obligations.EmptyChunkChangesNothing :=
  fun _ => rfl

/-- Settles O24, by XFAIL's meaning, its code, and the commands of the two transport reads. -/
theorem xfailOnlyReports : Obligations.XfailOnlyReports :=
  ⟨fun _ => rfl, fun _ => rfl, rfl, fun _ => rfl⟩

end

section
/-! Proofs of the statements of 41_extractor.md: the frames DECODE rejects (R131, R132, R168), the field rules (R133 to R165)
against the wire format read as numbers, the commit (R166, R169), and the scaled view (R167). -/

namespace Sys2Proof.Machine

open Sys2Proof

/-! ### Frames that are reported -/

section Reported

variable {s : State} {cls id : Byte} (c0 c1 : Byte) (P : List Byte)

theorem frameInstr_of_class_ne {cfg : Config} (id : Byte) (h : cls ≠ cfg.pvtClass) :
    frameInstr cfg cls id P c0 c1 = .unrecognizedClass cls id P c0 c1 :=
  if_neg h

theorem frameInstr_of_id_ne {cfg : Config} (h : id ≠ cfg.pvtId) :
    frameInstr cfg cfg.pvtClass id P c0 c1 = .unrecognizedMessage id P c0 c1 := by
  rw [frameInstr, if_pos rfl, if_neg h]

theorem frameInstr_recognized (cfg : Config) :
    frameInstr cfg cfg.pvtClass cfg.pvtId P c0 c1 = .navPvt P c0 c1 := by
  rw [frameInstr, if_pos rfl, if_pos rfl]

/-- R131: the class is tested first. -/
theorem exec_frameInstr_unrecognized (h : cls ≠ s.cfg.pvtClass ∨ id ≠ s.cfg.pvtId) :
    exec (frameInstr s.cfg cls id P c0 c1) s =
      .next (s.raise (if cls ≠ s.cfg.pvtClass then .unrecognizedClass else .unrecognizedMessage)) := by
  by_cases hcls : cls = s.cfg.pvtClass
  · have hid : id ≠ s.cfg.pvtId := h.resolve_left (not_not_intro hcls)
    rw [hcls, frameInstr_of_id_ne c0 c1 P hid, if_neg (not_not_intro rfl)]
    rfl
  · rw [frameInstr_of_class_ne c0 c1 P id hcls, if_pos hcls]
    rfl

/-- A frame whose row only reports is removed by the INGEST that delivers it, which hands the status on (R108). -/
theorem exec_ingest_frameBytes_of_raise {st : Status} (hs : s.Inv) (h0 : s.fill = 0)
    (hfit : P.length + 8 ≤ s.cfg.bufCap) (hP : P.length < 65536)
    (hrow : exec (frameInstr s.cfg cls id P c0 c1) s = .next (s.raise st)) :
    ∃ t, exec (.ingest (frameBytes s.cfg cls id P c0 c1)) s = .next t ∧ t.fill = 0 ∧ t.record = s.record ∧
      t.fresh = s.fresh ∧ t.response = Response.ofStatus st := by
  obtain ⟨hw, -, -⟩ := hs
  obtain ⟨t, ht, hsame, hfill⟩ := exec_ingest_frameBytes hw h0 cls id c0 c1 P hP hfit
  rw [exec_frame _ _ (frameInstr_isCommand s.cfg cls id P c0 c1)] at hrow
  rw [Host.Outcome.next.inj hrow] at hsame
  obtain ⟨hrec, hfresh, hresp⟩ := hsame
  exact ⟨t, ht, hfill, hrec, hfresh, hresp⟩

end Reported

/-! ### The payload layout (R70) -/

theorem mem_payloadLayout_cases {cfg : Config} {f : Nat × Nat} (hf : f ∈ payloadLayout cfg) :
    f = (cfg.pdopOffset, 2) ∨ f.1 + f.2 ≤ 76 := by
  have hsplit : payloadLayout cfg = (payloadLayout Config.default).dropLast ++ [(cfg.pdopOffset, 2)] := rfl
  have hfixed : ∀ g ∈ (payloadLayout Config.default).dropLast, g.1 + g.2 ≤ 76 := by decide
  rw [hsplit, List.mem_append, List.mem_singleton] at hf
  exact hf.symm.imp_right (hfixed f)

/-- PVT_MIN_LEN is the end of the last field (R73). -/
theorem payloadLayout_end_le_pvtMinLen {cfg : Config} {f : Nat × Nat} (hf : f ∈ payloadLayout cfg) :
    f.1 + f.2 ≤ cfg.pvtMinLen := by
  rcases mem_payloadLayout_cases hf with rfl | h76
  · exact Nat.le_max_right _ _
  · exact h76.trans (Nat.le_max_left _ _)

/-! ### The readers against the wire format read as numbers (R8) -/

section Readers

variable (P : List Byte) (o : Nat)

@[simp] theorem unsignedAt_zero : unsignedAt P o 0 = 0 := by
  simp [unsignedAt, leNum]

theorem unsignedAt_succ (n : Nat) :
    unsignedAt P o (n + 1) = (byteAt P o).toNat + 256 * unsignedAt P (o + 1) n := by
  by_cases ho : o < P.length
  · rw [unsignedAt, List.drop_eq_getElem_cons ho, List.take_succ_cons, leNum, byteAt, List.getD_eq_getElem _ _ ho,
      unsignedAt]
  · have hnil : P.drop o = [] := List.drop_eq_nil_of_le (by omega)
    have hnil' : P.drop (o + 1) = [] := List.drop_eq_nil_of_le (by omega)
    have hbyte : byteAt P o = 0 := List.getD_eq_default _ _ (by omega)
    simp [unsignedAt, leNum, hnil, hnil', hbyte]

theorem leU8_toNat_eq_unsignedAt : (leU8 P o).toNat = unsignedAt P o 1 := by
  simp [unsignedAt_succ, leU8]

theorem leU16_toNat_eq_unsignedAt : (leU16 P o).toNat = unsignedAt P o 2 := by
  simp [unsignedAt_succ, leU16_toNat]

theorem leU32_toNat_eq_unsignedAt : (leU32 P o).toNat = unsignedAt P o 4 := by
  simp only [leU32_toNat, unsignedAt_succ, unsignedAt_zero, Nat.add_assoc, Nat.reduceAdd]
  omega

theorem leI32_toInt_eq_signedAt : (leI32 P o).toInt = signedAt P o := by
  rw [leI32_toInt, leU32_toNat_eq_unsignedAt, signedAt]

end Readers

/-! ### The fix type and the flag bits (R71, R72) -/

/-- R145: codes above 5 are NO_FIX. -/
theorem fixTypeOfByte_code (v : Byte) : (fixTypeOfByte v).code = if v.toNat ≤ 5 then v.toNat else 0 := by
  by_cases h5 : v.toNat ≤ 5
  · have hv : v = 0 ∨ v = 1 ∨ v = 2 ∨ v = 3 ∨ v = 4 ∨ v = 5 := by bv_omega
    rcases hv with rfl | rfl | rfl | rfl | rfl | rfl <;> rfl
  · have hne (c : Byte) (hc : c.toNat ≤ 5) : v ≠ c := fun h => h5 (h ▸ hc)
    rw [if_neg h5, fixTypeOfByte, if_neg (hne 1 (by decide)), if_neg (hne 2 (by decide)), if_neg (hne 3 (by decide)),
      if_neg (hne 4 (by decide)), if_neg (hne 5 (by decide)), FixType.code]

theorem getLsbD_eq_decide (v : Byte) (i : Nat) : v.getLsbD i = decide (v.toNat / 2 ^ i % 2 = 1) :=
  Nat.testBit_eq_decide_div_mod_eq

/-- A one-bit mask tests that bit. -/
theorem and_twoPow_bne_zero (v : Byte) {i : Nat} (hi : i < 8) : (v &&& BitVec.twoPow 8 i != 0) = v.getLsbD i := by
  have hmask : BitVec.twoPow 8 i ≠ 0 := fun h => by simpa [hi] using congrArg (·.getLsbD i) h
  rw [BitVec.and_twoPow]
  split
  · next hbit => rw [hbit, bne_iff_ne.2 hmask]
  · next hbit => exact (Bool.eq_false_of_not_eq_true hbit).symm

theorem fixValidBit_eq (P : List Byte) (o : Nat) :
    fixValidBit (leU8 P o) = decide (unsignedAt P o 1 % 2 = 1) := by
  rw [fixValidBit, getLsbD_eq_decide, leU8_toNat_eq_unsignedAt, pow_zero, Nat.div_one]

theorem dateValidBit_eq (P : List Byte) (o : Nat) :
    dateValidBit (leU8 P o) = decide (unsignedAt P o 1 / 64 % 2 = 1) := by
  rw [← leU8_toNat_eq_unsignedAt]
  exact (and_twoPow_bne_zero _ (by decide)).trans (getLsbD_eq_decide _ 6)

theorem timeValidBit_eq (P : List Byte) (o : Nat) :
    timeValidBit (leU8 P o) = decide (unsignedAt P o 1 / 128 % 2 = 1) := by
  rw [← leU8_toNat_eq_unsignedAt]
  exact (and_twoPow_bne_zero _ (by decide)).trans (getLsbD_eq_decide _ 7)

/-! ### What the record is a function of -/

/-- R133: payloads that agree on their first PVT_MIN_LEN bytes give one record. -/
theorem extractRecord_eq_of_take_eq {cfg : Config} {P P' : List Byte}
    (h : P'.take cfg.pvtMinLen = P.take cfg.pvtMinLen) : extractRecord cfg P' = extractRecord cfg P :=
  extractRecord_congr fun o ho => by rw [← byteAt_take ho, h, byteAt_take ho]

theorem byteAt_replicate_zero (n o : Nat) : byteAt (List.replicate n 0) o = 0 :=
  List.getElem?_getD_replicate_default_eq 0 n o

/-- R169: zero bytes give zero fields, and NO_FIX. -/
theorem extractRecord_replicate_zero (cfg : Config) (n : Nat) : extractRecord cfg (List.replicate n 0) = Record.zero := by
  simp only [extractRecord, leU8, leU16, leU32, leI32, byteAt_replicate_zero]
  rfl

end Sys2Proof.Machine

open Sys2Proof Sys2Proof.Machine

/-- Settles O33: the row reports and leaves the cell, and INGEST removes the frame. -/
theorem unrecognizedFramesAreReportedAndRemoved : Obligations.UnrecognizedFramesAreReportedAndRemoved :=
  fun _ _ id c0 c1 P => ⟨fun hcls => ⟨rfl, frameInstr_of_class_ne c0 c1 P id hcls⟩,
    fun hid => ⟨rfl, frameInstr_of_id_ne c0 c1 P hid⟩,
    fun hs h0 hfit hP hne =>
      exec_ingest_frameBytes_of_raise c0 c1 P hs h0 hfit hP (exec_frameInstr_unrecognized c0 c1 P hne)⟩

/-- Settles O34: the length test comes before every read, and PVT_MIN_LEN is the end of the last field. -/
theorem shortPayloadIsRejected : Obligations.ShortPayloadIsRejected := by
  refine fun s P c0 c1 => ⟨exec_navPvt_short c0 c1, fun hshort hs h0 hfit hP => ?_, fun hlong f hf => ?_, rfl⟩
  · refine exec_ingest_frameBytes_of_raise c0 c1 P hs h0 hfit hP ?_
    rw [frameInstr_recognized, exec_navPvt_short c0 c1 hshort]
  · have hend := payloadLayout_end_le_pvtMinLen hf
    exact ⟨hend, hend.trans hlong⟩

/-- Settles O35: equal first parts are of equal length, so both payloads decode, and to one record. -/
theorem extractionDependsOnThePayloadAlone : Obligations.ExtractionDependsOnThePayloadAlone := by
  intro s s' P P' c0 c1 d0 d1 hcfg hP htake
  have hP' : s.cfg.pvtMinLen ≤ P'.length := by
    have hlen := congrArg List.length htake
    simp only [List.length_take] at hlen
    omega
  refine ⟨_, _, exec_navPvt_long c0 c1 hP, exec_navPvt_long d0 d1 (hcfg ▸ hP'), ?_⟩
  exact hcfg ▸ (extractRecord_eq_of_take_eq htake).symm

/-- Settles O36: each field is its reader at its offset, and the sample's fields are computed. -/
theorem timeFieldsAreExtracted : Obligations.TimeFieldsAreExtracted := by
  refine ⟨fun s P c0 c1 hP => ⟨_, exec_navPvt_long c0 c1 hP, ?_⟩, by decide, rfl, rfl⟩
  refine ⟨leU32_toNat_eq_unsignedAt P 0, leU16_toNat_eq_unsignedAt P 4, leU8_toNat_eq_unsignedAt P 6,
    leU8_toNat_eq_unsignedAt P 7, leU8_toNat_eq_unsignedAt P 8, leU8_toNat_eq_unsignedAt P 9,
    leU8_toNat_eq_unsignedAt P 10, leU8_toNat_eq_unsignedAt P 11, leU32_toNat_eq_unsignedAt P 12,
    leI32_toInt_eq_signedAt P 16, ?_, leU8_toNat_eq_unsignedAt P 21⟩
  rw [← leU8_toNat_eq_unsignedAt]
  exact fixTypeOfByte_code (leU8 P 20)

/-- Settles O37: each field is its reader at its offset, and a mask of one bit tests that bit. -/
theorem flagAndPositionFieldsAreExtracted : Obligations.FlagAndPositionFieldsAreExtracted := by
  refine ⟨fun s P c0 c1 hP => ⟨_, exec_navPvt_long c0 c1 hP, ?_⟩, by decide, by decide, by decide, by decide, by decide⟩
  exact ⟨fixValidBit_eq P 21, leU8_toNat_eq_unsignedAt P 22, dateValidBit_eq P 22, timeValidBit_eq P 22,
    leU8_toNat_eq_unsignedAt P 23, leI32_toInt_eq_signedAt P 24, leI32_toInt_eq_signedAt P 28,
    leI32_toInt_eq_signedAt P 32, leI32_toInt_eq_signedAt P 36, leU32_toNat_eq_unsignedAt P 40,
    leU32_toNat_eq_unsignedAt P 44⟩

/-- Settles O38: each field is its reader at its offset; at PDOP_OFFSET = 72 the position DOP is the low half (R44). -/
theorem velocityHeadingAndDopFieldsAreExtracted : Obligations.VelocityHeadingAndDopFieldsAreExtracted := by
  refine ⟨fun s P c0 c1 hP => ⟨_, exec_navPvt_long c0 c1 hP, ?_⟩, by decide, by decide⟩
  exact ⟨leI32_toInt_eq_signedAt P 48, leI32_toInt_eq_signedAt P 52, leI32_toInt_eq_signedAt P 56,
    leI32_toInt_eq_signedAt P 60, leI32_toInt_eq_signedAt P 64, leU32_toNat_eq_unsignedAt P 68,
    leU32_toNat_eq_unsignedAt P 72, leU16_toNat_eq_unsignedAt P s.cfg.pdopOffset,
    pdopIsTheLowHalfOfHeadAcc.1 s.cfg P⟩

/-- Settles O40: a frame row that touches the cell answers OK. -/
theorem noPartialRecord : Obligations.NoPartialRecord := by
  intro i s t hi h
  rw [exec_frame i s hi] at h
  obtain rfl := Host.Outcome.next.inj h
  refine ⟨fun hne => ?_, afterFrame_frame i s⟩
  rcases afterFrame_cell_cases i s with hsame | ⟨P, c0, c1, -, -, hafter⟩
  · exact hsame
  · rw [hafter] at hne
    exact absurd rfl hne

/-- Settles O41: every reader answers 0 on zero bytes. -/
theorem allZeroPayloadLooksLikeReset : Obligations.AllZeroPayloadLooksLikeReset := by
  intro s n c0 c1 hn
  have hzero : extractRecord s.cfg (List.replicate n 0) = Record.zero := extractRecord_replicate_zero s.cfg n
  exact ⟨_, _, exec_navPvt_long c0 c1 (by simpa using hn), hzero, rfl, rfl, hzero, rfl⟩

/-- Settles O39: the commit replaces the record, whose fields are the payload's alone. -/
theorem decodeCommitsTheWholeRecord : Obligations.DecodeCommitsTheWholeRecord := by
  intro s P c0 c1 hP
  rw [exec_navPvt_long c0 c1 hP]
  exact ⟨rfl, fun old => exec_navPvt_long c0 c1 (s := { s with record := old }) hP⟩

/-- Settles O45: no divisor is 0, so `raw / D * D` is `raw`; the table's entries are the definitions'. -/
theorem scaledViewIsExact : Obligations.ScaledViewIsExact := by
  refine ⟨fun r f => ?_, rfl, rfl, rfl, rfl, rfl, fun r hr => ?_⟩
  · have hD : (f.divisor : Rat) ≠ 0 := by cases f <;> norm_num [ScaledField.divisor]
    rw [Record.scaled, Rat.mkRat_eq_div, div_mul_cancel₀ _ hD]
  · have hraw : r.raw .lon = 123456789 := by rw [Record.raw, hr]; rfl
    rw [Record.scaled, Rat.mkRat_eq_div, hraw]
    norm_num [ScaledField.divisor]

end

section
/-! Proofs of the statements of 42_accessors.md: the two peeks (R170, R171), and the unread record an error leaves (R173). -/

namespace Sys2Proof.Machine

open Sys2Proof

/-! ### PEEK_IF_NEW, one equation per value of `fresh` (R171) -/

theorem exec_peekIfNew_of_fresh {s : State} (h : s.fresh = true) :
    exec .peekIfNew s = .next (s.markConsumed.respond (Response.ofNew s.record)) :=
  if_pos h

theorem exec_peekIfNew_of_not_fresh {s : State} (h : s.fresh = false) :
    exec .peekIfNew s = .next (s.respond Response.ofNothingNew) :=
  if_neg (Bool.eq_false_iff.1 h)

/-! ### Errors and the cell -/

theorem Response.ofStatus_inj {st st' : Status} (h : Response.ofStatus st = Response.ofStatus st') : st = st' :=
  Option.some.inj (congrArg Response.status h)

/-- An instruction that answers an error status leaves the cell: a decode that writes it answers OK, and the peeks and
RESET answer no status. -/
theorem exec_cell_of_error {i : Instr} {s t : State} {st : Status} (h : exec i s = .next t)
    (hresp : t.response = Response.ofStatus st) (hst : st ≠ .ok) : t.record = s.record ∧ t.fresh = s.fresh := by
  have not_ok : t.response ≠ Response.ofStatus .ok := fun hok => hst (Response.ofStatus_inj (hresp.symm.trans hok))
  cases i with
  | ingest c => exact (execIngest_cell h).resolve_right fun hdecoded => not_ok hdecoded.1
  | xfail =>
    cases h
    exact ⟨rfl, rfl⟩
  | peekIfNew =>
    cases hf : s.fresh with
    | true =>
      rw [exec_peekIfNew_of_fresh hf] at h
      cases h
      cases hresp
    | false =>
      rw [exec_peekIfNew_of_not_fresh hf] at h
      cases h
      cases hresp
  | peekAlways | reset =>
    cases h
    cases hresp
  | navPvt | unrecognizedMessage | unrecognizedClass =>
    rw [exec_frame _ _ rfl] at h
    cases h
    exact (afterFrame_cell _ s).resolve_right fun hdecoded => not_ok hdecoded.1

end Sys2Proof.Machine

open Sys2Proof Sys2Proof.Machine

/-- Settles O48: an error leaves the cell, so the next PEEK_IF_NEW finds the record still new. -/
theorem errorsKeepAnUnreadRecord : Obligations.ErrorsKeepAnUnreadRecord := by
  intro i s t st h hresp hst
  obtain ⟨hrec, hfresh⟩ := exec_cell_of_error h hresp hst
  refine ⟨hfresh, fun hs => ⟨_, exec_peekIfNew_of_fresh (hfresh.trans hs), ?_⟩⟩
  rw [State.respond_response, hrec]

/-- Settles O46: the record is the same before and after the peek, and what a second peek writes already stands. -/
theorem peekAlwaysReadsAndConsumes : Obligations.PeekAlwaysReadsAndConsumes := by
  refine fun s => ⟨rfl, fun t ht => ?_, fun _ => rfl⟩
  cases ht
  rfl

/-- Settles O47: either peek leaves `fresh` 0 and the record as it was, so the next PEEK_IF_NEW answers nothing new. -/
theorem peekIfNewFiresOnce : Obligations.PeekIfNewFiresOnce := by
  refine fun s => ⟨exec_peekIfNew_of_fresh, exec_peekIfNew_of_not_fresh, fun t ht => ?_, fun _ => rfl⟩
  obtain ⟨hrec, hfresh⟩ : t.record = s.record ∧ t.fresh = false :=
    ht.elim (exec_accessor_cell (.inr rfl)) (exec_accessor_cell (.inl rfl))
  exact ⟨_, exec_peekIfNew_of_not_fresh hfresh, rfl, hrec⟩

end

section
/-! Proofs of the statements of 60_exceptions.md: no instruction stops the block (R181, R184), and a host that sends no
reserved code (R62) and no overlap (R204) is never refused. -/

namespace Sys2Proof.Machine

open Sys2Proof

/-! ### What the contract excludes -/

@[simp] theorem HostEvent.inContract_overlap (cfg : Config) (r r' : Request) :
    (HostEvent.overlap r r').inContract cfg = false := rfl

/-- A command the decoder rejects is outside the contract (R62). -/
theorem HostEvent.inContract_of_decodeCommand_error {cfg : Config} {r : Request} {e : Reject}
    (hd : decodeCommand r.cmd r.chunk = .error e) : (HostEvent.command r).inContract cfg = false := by
  simp only [HostEvent.inContract, hd]

/-! ### One step within the contract -/

theorem State.hostInContract.head {s : State} {e : HostEvent} {rest : List HostEvent} (h : s.hostInContract)
    (hh : s.host = e :: rest) : e.inContract s.cfg = true :=
  h e (hh ▸ List.mem_cons_self)

/-- The two refusals of a step are of transactions outside the contract, and an instruction always completes. -/
theorem step_completes_of_hostInContract {s : State} (h : s.hostInContract) : ∃ t, step s = .next t := by
  rcases step_cases s with ⟨-, hs⟩ | ⟨r, r', rest, hh, -⟩ | ⟨r, rest, e, hh, hd, -⟩ | ⟨r, rest, i, -, -, -, hs⟩
  · exact ⟨s, hs⟩
  · exact absurd (h.head hh) (by simp)
  · exact absurd (h.head hh) (by simp [HostEvent.inContract_of_decodeCommand_error hd])
  · rw [hs]
    exact exec_completes i _

/-- What a step leaves of the stream was in the stream, and the parameters it is judged by are the same. -/
theorem State.hostInContract.of_step {s t : State} (h : s.hostInContract) (hs : step s = .next t) :
    t.hostInContract := by
  obtain ⟨hcfg, hhost⟩ := stepKeepsParametersAndTakesOneTransaction s t hs
  intro e he
  rw [hhost] at he
  rw [hcfg]
  exact h e (List.mem_of_mem_tail he)

/-- A run's first step that answers leaves the run to its other steps. -/
theorem run_succ_of_step {s t : State} (n : Nat) (hs : step s = .next t) :
    Host.Core.run Sys2Proof.core (n + 1) s = Host.Core.run Sys2Proof.core n t := by
  have hcore : Sys2Proof.core.step s = .next t := hs
  simp only [Host.Core.run, hcore]

end Sys2Proof.Machine

open Sys2Proof Sys2Proof.Machine

/-- Settles O51: each command has an answer in each of its cases, and so has each frame row. -/
theorem everyInstructionCompletes : Obligations.EveryInstructionCompletes := exec_completes

/-- Settles O52, by induction on the number of steps: a step within the contract completes and leaves the contract kept. -/
theorem runsWithinTheContractNeverStop : Obligations.RunsWithinTheContractNeverStop := by
  intro n
  induction n with
  | zero => exact fun s _ => ⟨s, rfl⟩
  | succ n ih =>
    intro s h
    obtain ⟨t, ht⟩ := step_completes_of_hostInContract h
    rw [run_succ_of_step n ht]
    exact ih t (h.of_step ht)

end

section
/-! Proofs of the statements of 70_reset_and_hazards.md: the initial state (R200), waiting for the host (R201) and overlapping
commands (R204). -/

namespace Sys2Proof.Machine

open Sys2Proof

/-! ### The two fetches that run nothing -/

/-- R201: with no transaction presented there is nothing to run. -/
theorem fetch_of_nil {s : State} (hh : s.host = []) : fetch s = .idle := by
  simp only [fetch, hh]

/-- R204: the fetch refuses an overlap without decoding either transaction. -/
theorem fetch_of_overlap {s : State} {r r' : Request} {rest : List HostEvent} (hh : s.host = .overlap r r' :: rest) :
    fetch s = .stop .overlappingCommands := by
  simp only [fetch, hh]

/-! ### The initial state -/

/-- R200: what RESET writes, and that it keeps the parameters and the host's stream. -/
theorem exec_reset (s : State) :
    ∃ t, exec .reset s = .next t ∧ t.fill = 0 ∧ t.fresh = false ∧ t.record = Record.zero ∧
      t.response = Response.absent ∧ t.cfg = s.cfg ∧ t.host = s.host :=
  ⟨_, rfl, rfl, rfl, rfl, rfl, rfl, rfl⟩

/-- R29: every field of the scaled view's table is 0 in the initial record. -/
theorem Record.zero_raw (f : ScaledField) : Record.zero.raw f = 0 := by
  cases f <;> rfl

end Sys2Proof.Machine

open Sys2Proof Sys2Proof.Machine

/-- Settles O3: the fetch stops at the overlap. -/
theorem overlappingCommandsAreRefused : Obligations.OverlappingCommandsAreRefused := by
  intro s r r' rest hh
  simp only [step, fetch_of_overlap hh]

/-- Settles O5: the fetch of an empty stream is idle. -/
theorem stepWaitsForTheHost : Obligations.StepWaitsForTheHost := by
  intro s hh
  simp only [step, fetch_of_nil hh]

/-- Settles O49: `fill` is 0, so no byte is valid, and `fresh` is 0, so a PEEK_IF_NEW that follows has nothing new. -/
theorem resetLeavesTheInitialState : Obligations.ResetLeavesTheInitialState := by
  refine ⟨fun s => ?_, fun cfg => ?_, Record.zero_raw, by decide, fun _ => rfl⟩
  · obtain ⟨t, ht, hfill, hfresh, hrecord, hresponse, hcfg, hhost⟩ := exec_reset s
    exact ⟨t, ht, ⟨hfill, hfresh, hrecord, State.contents_of_fill_eq_zero hfill⟩, hresponse, hcfg, hhost,
      _, exec_peekIfNew_of_not_fresh hfresh, State.respond_response _ _⟩
  · exact ⟨State.resetWith_fill cfg, State.resetWith_fresh cfg, State.resetWith_record cfg,
      State.contents_of_fill_eq_zero (State.resetWith_fill cfg)⟩

end
